-- ==== Sys2Proof/Word.lean ====
section
/-! DEFINITION. The word types of the CHIP-8 core (spec/00_scope.md R5, R8) and their plainest forms. -/

namespace Sys2Proof

/-- A data byte: a V register, a memory byte, a timer (R13, R24, R32). -/
abbrev Byte := BitVec 8

/-- A 16-bit word: an instruction, PC, I, a stack entry (R16, R20, R21, R45). -/
abbrev Word := BitVec 16

/-- The 12-bit address field `nnn` (R47). -/
abbrev Addr12 := BitVec 12

/-- The index of a V register, 0x0 to 0xF (R13). -/
abbrev RegIdx := Fin 16

/-- The index of a key, 0x0 to 0xF (R27). -/
abbrev KeyIdx := Fin 16

/-- VF, the 16th register, which also holds the flag (R14). -/
abbrev vf : RegIdx := 15

/-- The size of the address space, `MEM_SIZE` (R5). -/
abbrev memSize : Nat := 4096

/-- The program load address and entry point, `LOAD_ADDR` (R5, R120). -/
abbrev loadAddr : Nat := 0x200

/-- The longest program, `MAX_PROGRAM` (R5, R121). -/
abbrev maxProgram : Nat := 3584

end Sys2Proof
end

