-- ==== Sys2Proof/Config.lean ====
section
/-! DEFINITION. The quirk and platform parameters of spec/00_scope.md R6, their defaults, and the free value of the
model: the random byte of R7. -/

namespace Sys2Proof

/-- `SHIFT_SOURCE` (D1): which register the shifts read. -/
inductive ShiftSource where
  | vx
  | vy
  deriving DecidableEq, Repr

/-- `DRAW_EDGE` (D5): what happens to sprite pixels past column 63 or row 31. -/
inductive DrawEdge where
  | clip
  | wrap
  deriving DecidableEq, Repr

/-- `ADDI_OVERFLOW_LIMIT` (D7): the sum above which `ADD I, Vx` sets VF. -/
inductive AddiLimit where
  | addressSpace   -- 0x0FFF
  | indexWidth     -- 0xFFFF
  deriving DecidableEq, Repr

/-- `FONT_DIGIT_POLICY` (D9): what `LD F, Vx` does with a digit above 0xF. -/
inductive FontDigitPolicy where
  | mask
  | unmasked
  deriving DecidableEq, Repr

/-- `SYS_POLICY` (D11): what `SYS nnn` does. -/
inductive SysPolicy where
  | fault
  | nop
  deriving DecidableEq, Repr

/-- The parameters of R6, one field each. A machine is built with one value of each and never changes it.
`fontBase` is at most 432, so that `FONT_BASE + 80 ≤ 0x200` (D8). -/
structure Config where
  shiftSource          : ShiftSource
  logicResetsVf        : Bool
  loadStoreIncrementsI : Bool
  drawEdge             : DrawEdge
  addiOverflowLimit    : AddiLimit
  fontBase             : Fin 433
  fontDigitPolicy      : FontDigitPolicy
  fontImage            : Vector Byte 80
  sysPolicy            : SysPolicy
  deriving DecidableEq, Repr

/-- The defaults of R6, the spec's own choices D1 to D11. DESIGN CHOICE of the spec, log entry 15. -/
def Config.default : Config where
  shiftSource          := .vx
  logicResetsVf        := false
  loadStoreIncrementsI := false
  drawEdge             := .clip
  addiOverflowLimit    := .addressSpace
  fontBase             := 0x050
  fontDigitPolicy      := .mask
  fontImage            := Vector.replicate 80 0
  sysPolicy            := .fault

/-- The conventional font image (spec/93_implementation_defined.md, G22): the alternative value of `FONT_IMAGE`,
16 glyphs of 5 bytes, digit 0 first. It is not the default. -/
def Config.conventionalFont : Vector Byte 80 :=
  #v[0xF0, 0x90, 0x90, 0x90, 0xF0,  0x20, 0x60, 0x20, 0x20, 0x70,
     0xF0, 0x10, 0xF0, 0x80, 0xF0,  0xF0, 0x10, 0xF0, 0x10, 0xF0,
     0x90, 0x90, 0xF0, 0x10, 0x10,  0xF0, 0x80, 0xF0, 0x10, 0xF0,
     0xF0, 0x80, 0xF0, 0x90, 0xF0,  0xF0, 0x10, 0x20, 0x40, 0x40,
     0xF0, 0x90, 0xF0, 0x90, 0xF0,  0xF0, 0x90, 0xF0, 0x10, 0xF0,
     0xF0, 0x90, 0xF0, 0x90, 0x90,  0xE0, 0x90, 0xE0, 0x90, 0xE0,
     0xF0, 0x80, 0x80, 0x80, 0xF0,  0xE0, 0x90, 0x90, 0x90, 0xE0,
     0xF0, 0x80, 0xF0, 0x80, 0xF0,  0xF0, 0x80, 0xF0, 0x80, 0x80]

/-- The random byte of `RND` (R7, R80, D21): a free value. Draw number `n` of the host's random source. It has no
body, so nothing can be proved of any draw, and a statement that names it holds whatever the source gives.
Log entry 3. -/
opaque Config.drawByte : Nat → Byte

end Sys2Proof
end

