-- ==== Sys2Proof/Machine/State.lean ====
section
/-! DEFINITION. The state of the machine (spec/10_state.md R13 to R31, spec/20_memory.md R32), the reasons a step can stop,
and the state after reset (R30). -/

namespace Sys2Proof.Machine

/-- The six error kinds of R100, each with the information it records. The value a halted core holds (R28). -/
inductive ErrorRecord where
  /-- Code 1, `load` of more than 3584 bytes (R121): the length. Never halts the core. -/
  | programTooLarge (length : Nat)
  /-- Code 2, an unknown word, or SYS under SYS_POLICY = fault: the word and its address. -/
  | unknownInstruction (w a : Word)
  /-- Code 3, CALL with SP = 16: the address of the CALL. -/
  | stackOverflow (a : Word)
  /-- Code 4, RET with SP = 0: the address of the RET. -/
  | stackUnderflow (a : Word)
  /-- Code 5, a fetch or access above 0xFFF: the lowest address out of range, an exact integer (R34). -/
  | memoryOutOfRange (address : Nat)
  /-- Code 6, a key index above 0xF: the index. `set_key` takes any integer (R108), so it may be negative there. -/
  | invalidKeyIndex (index : Int)
  deriving DecidableEq, Repr

/-- The numeric code of an error kind (R100, D22): a label. -/
def ErrorRecord.code : ErrorRecord → Nat
  | .programTooLarge _ => 1
  | .unknownInstruction _ _ => 2
  | .stackOverflow _ => 3
  | .stackUnderflow _ => 4
  | .memoryOutOfRange _ => 5
  | .invalidKeyIndex _ => 6

/-- Memory: the (address, byte) pairs that differ from what an unlisted address reads as, addresses strictly rising
(R32; the form is `Memory.wf` of Machine/Ops.lean). -/
abbrev Memory := List Host.Cell

/-- The framebuffer `FB[y][x]`: 32 rows of 64 pixels, origin at the top left (R26). -/
abbrev Framebuffer := Vector (Vector Bool 64) 32

/-- Everything the spec gives the machine, under the spec's own names, and two fields more: `cfg`, the parameters of R6,
which never change (log entry 2), and `drawIndex`, the model's own count of draws taken (R7, log entry 3). -/
structure State where
  /-- The parameters of R6. -/
  cfg : Config
  /-- 4096 bytes (R32). -/
  mem : Memory
  /-- V0 to VF (R13, R14). -/
  V : Vector Byte 16
  /-- The index register (R20). -/
  I : Word
  /-- The program counter (R16). -/
  PC : Word
  /-- The return addresses (R21). -/
  stack : Vector Word 16
  /-- The number of stack entries in use, 0 to 16 (R22). -/
  SP : Fin 17
  /-- The delay timer (R24). -/
  DT : Byte
  /-- The sound timer (R25). -/
  ST : Byte
  /-- The framebuffer (R26). -/
  FB : Framebuffer
  /-- The key latch (R27). -/
  keys : Vector Bool 16
  /-- The halt status (R28). -/
  halted : Option ErrorRecord
  /-- How many random bytes `RND` has drawn (the model's own, R7). -/
  drawIndex : Nat
  deriving DecidableEq, Repr

/-- A step never ends in a fault: every error of R100 leaves a state the spec describes (the `halted` record and PC, R101),
on which ticks, key writes and `load` still act (R102), so it is a NEXT state. Nothing raises a Fault; log entry 1. -/
inductive Fault where
  deriving DecidableEq, Repr

/-- A step is refused only for an instruction the model gives no meaning. -/
inductive Refusal where
  /-- Raised by an arm of `exec` that has no meaning yet: the mnemonic. Safe: the model stops where the hardware goes on.
  No arm answers it. -/
  | notModelled (mnemonic : String)
  deriving DecidableEq, Repr

/-- The machine right after reset (R30, R120): construction with the default parameters of R6 and no program byte. Memory is
all zero, the default font image being 80 zero bytes. -/
def State.reset : State where
  cfg       := Config.default
  mem       := []
  V         := Vector.replicate 16 0
  I         := 0
  PC        := 0x200
  stack     := Vector.replicate 16 0
  SP        := 0
  DT        := 0
  ST        := 0
  FB        := Vector.replicate 32 (Vector.replicate 64 false)
  keys      := Vector.replicate 16 false
  halted    := none
  drawIndex := 0

end Sys2Proof.Machine
end

