-- ==== Sys2Proof/Machine/Ops.lean ====
section
/-! DEFINITION. The named operations over registers and memory (spec/00_scope.md R9), the access primitives of
spec/20_memory.md (R34 to R36), the stack (R22), and raising an error (spec/60_exceptions.md R101). -/

namespace Sys2Proof.Machine

/-! ### Memory -/

/-- What a byte nothing has written reads as: memory is zeroed by reset (R30, R120). -/
def Memory.unlisted : Byte := 0

/-- `mem[a]`. -/
def Memory.readByte : Memory → Nat → Byte
  | [], _ => Memory.unlisted
  | c :: m, a => if c.1 = a then c.2 else Memory.readByte m a

/-- Drops the entry of an address. -/
def Memory.erase (m : Memory) (a : Nat) : Memory := m.filter (fun c => decide (c.1 ≠ a))

/-- Puts an entry before the first one of a higher address. -/
def Memory.insert : Memory → Nat → Byte → Memory
  | [], a, b => [(a, b)]
  | c :: m, a, b => if a < c.1 then (a, b) :: c :: m else c :: Memory.insert m a b

/-- `mem[a] <- b`, in the canonical form: a byte equal to what an unlisted address reads as is not listed. -/
def Memory.writeByte (m : Memory) (a : Nat) (b : Byte) : Memory :=
  if b = Memory.unlisted then Memory.erase m a else Memory.insert (Memory.erase m a) a b

/-- `mem[a + k] <- bytes[k]` for every k in turn. -/
def Memory.writeBytes : Memory → Nat → List Byte → Memory
  | m, _, [] => m
  | m, a, b :: bs => Memory.writeBytes (Memory.writeByte m a b) (a + 1) bs

/-- The n bytes from address a, in address order. -/
def Memory.readBytes (m : Memory) (a n : Nat) : List Byte :=
  (List.range n).map (fun k => Memory.readByte m (a + k))

/-- The canonical form: addresses strictly rising and inside 0x000 to 0xFFF, and no entry that an unlisted address would
read as anyway. -/
abbrev Memory.wf (m : Memory) : Prop :=
  m.Pairwise (fun c d => c.1 < d.1) ∧ ∀ c ∈ m, c.1 < memSize ∧ c.2 ≠ Memory.unlisted

/-- The error of an access from `addr` that reaches above 0xFFF: it records the lowest out-of-range address (R34). -/
def outOfRange (addr : Nat) : ErrorRecord := .memoryOutOfRange (max addr 0x1000)

/-- `MemRead(addr, n)`, n ≥ 1 (R35): the bytes in address order, so that the byte at `addr` is the highest. The check covers
every byte before any is returned. `addr` is an exact integer (R34). -/
def memRead (m : Memory) (addr n : Nat) : Except ErrorRecord (List Byte) :=
  if addr + n - 1 > 0xFFF then .error (outOfRange addr)
  else .ok (Memory.readBytes m addr n)

/-- `MemWrite(addr, n, v)`, v given as its n ≥ 1 bytes, high byte first (R36): all of the range is checked before any byte is
written. -/
def memWrite (m : Memory) (addr : Nat) (bytes : List Byte) : Except ErrorRecord Memory :=
  if addr + bytes.length - 1 > 0xFFF then .error (outOfRange addr)
  else .ok (Memory.writeBytes m addr bytes)

/-! ### Registers -/

/-- `V[x] <- b` (R9, R13): no register is hardwired. -/
def State.setV (s : State) (x : RegIdx) (b : Byte) : State := { s with V := s.V.set x b }

/-- All of V at once. -/
def State.setRegs (s : State) (v : Vector Byte 16) : State := { s with V := v }

/-- `I <- w` (R20). -/
def State.setI (s : State) (w : Word) : State := { s with I := w }

/-- `PC <- w` (R16). -/
def State.setPC (s : State) (w : Word) : State := { s with PC := w }

/-- `DT <- b` (R24). -/
def State.setDT (s : State) (b : Byte) : State := { s with DT := b }

/-- `ST <- b` (R25). -/
def State.setST (s : State) (b : Byte) : State := { s with ST := b }

/-- Replaces the framebuffer (R26). -/
def State.setFB (s : State) (fb : Framebuffer) : State := { s with FB := fb }

/-- `keys[k] <- p` (R27). -/
def State.setKeyBit (s : State) (k : KeyIdx) (p : Bool) : State := { s with keys := s.keys.set k p }

/-- Replaces memory. -/
def State.setMem (s : State) (m : Memory) : State := { s with mem := m }

/-- Counts one draw from the random source (R7). -/
def State.countDraw (s : State) : State := { s with drawIndex := s.drawIndex + 1 }

/-- The step cycle's "PC <- a + 2" (R49). -/
def State.advance (s : State) : State := s.setPC (s.PC + 2)

/-- `a`, the address the executing instruction was fetched from: PC holds `a + 2` while it executes (R16, R49).
DEDUCED, log entry 4. -/
def State.fetchAddr (s : State) : Word := s.PC - 2

/-- A taken skip passes over the one word after it: `PC <- PC + 2` (spec/40_control_flow.md, section 4). -/
def State.skipIf (s : State) (c : Bool) : State := if c then s.setPC (s.PC + 2) else s

/-- V0 to Vx in order (R13, R91). -/
def State.regBlock (s : State) (x : RegIdx) : List Byte := s.V.toList.take (x.val + 1)

/-- `V[k + j] <- bytes[j]` for every j in turn (R92). -/
def loadBlock : Vector Byte 16 → Nat → List Byte → Vector Byte 16
  | v, _, [] => v
  | v, k, b :: bs => loadBlock (v.setIfInBounds k b) (k + 1) bs

/-! ### The stack (R22) -/

/-- A push: `stack[SP] <- w`, then `SP <- SP + 1`; none on a full stack. -/
def State.push (s : State) (w : Word) : Option State :=
  if h : s.SP.val < 16 then
    some { s with stack := s.stack.set s.SP.val w, SP := ⟨s.SP.val + 1, by omega⟩ }
  else none

/-- A pop: `SP <- SP - 1`, then `stack[SP]`; none on an empty stack. The entry is not cleared (R23). -/
def State.pop (s : State) : Option (Word × State) :=
  if h : 0 < s.SP.val then
    have hlt : s.SP.val - 1 < 16 := by omega
    some (s.stack[s.SP.val - 1], { s with SP := ⟨s.SP.val - 1, by omega⟩ })
  else none

/-! ### Keys -/

/-- `min { k | keys[k] }`, none when no key is pressed (R97). -/
def lowestPressed (keys : Vector Bool 16) : Option KeyIdx :=
  (List.finRange 16).find? (fun k => keys[k])

/-! ### Errors (R101, R105) -/

/-- Error entry: the record is stored, and nothing else changes. Called on the state before any write of the instruction, so
there is nothing to discard; PC is what the step cycle left, `a` or `a + 2`. -/
def State.raise (s : State) (e : ErrorRecord) : State := { s with halted := some e }

/-- What an instruction that raises `e` answers: the state of the error entry. There is no return from an error (R106):
only `load` leaves the halt, and it stands in Machine/Commands.lean. -/
def raise (e : ErrorRecord) (s : State) : Host.Outcome State Fault Refusal := .next (s.raise e)

end Sys2Proof.Machine
end

