-- ==== Sys2Proof/Machine/Operands.lean ====
section
/-! DEFINITION. The operand forms of spec/30_encoding.md R48: registers, immediates, 12-bit addresses, and the one implicit
memory operand `[I]` (spec/43_index_memory.md R85). -/

namespace Sys2Proof.Machine

/-- `V[x]` (R48). -/
def State.reg (s : State) (x : RegIdx) : Byte := s.V[x]

/-- `zext_16(nnn)` (R48). -/
def zext16 (nnn : Addr12) : Word := nnn.setWidth 16

/-- `zext_16(kk)`, a byte as a 16-bit operand. -/
def zextByte (b : Byte) : Word := b.setWidth 16

/-- I as the exact base address of an access (R34, R85). -/
def State.base (s : State) : Nat := s.I.toNat

/-- The source of a shift (R76, R78): V[x] or V[y], as SHIFT_SOURCE says. -/
def State.shiftOperand (s : State) (x y : RegIdx) : Byte :=
  match s.cfg.shiftSource with
  | .vx => s.reg x
  | .vy => s.reg y

/-- The digit `LD F, Vx` looks up (R89), as FONT_DIGIT_POLICY says. -/
def State.fontDigit (s : State) (x : RegIdx) : Nat :=
  match s.cfg.fontDigitPolicy with
  | .mask => (s.reg x).toNat % 16
  | .unmasked => (s.reg x).toNat

/-- The key index in V[x], none when it is above 0xF (R96). -/
def State.keyOperand (s : State) (x : RegIdx) : Option KeyIdx :=
  if h : (s.reg x).toNat < 16 then some ⟨(s.reg x).toNat, h⟩ else none

/-- The sprite rows `DRW` reads (R84): the n bytes at I, and for n = 0 none at all, with no access made. -/
def State.spriteRows (s : State) (n : Fin 16) : Except ErrorRecord (List Byte) :=
  if n.val = 0 then .ok [] else memRead s.mem s.base n.val

/-- The decimal digits of a byte, hundreds first (R90). -/
def bcdDigits (v : Byte) : List Byte :=
  [BitVec.ofNat 8 (v.toNat / 100), BitVec.ofNat 8 (v.toNat / 10 % 10), BitVec.ofNat 8 (v.toNat % 10)]

/-- The quirk of R91 and R92: under LOADSTORE_INCREMENTS_I, `I <- (I + x + 1) mod 65536`. -/
def State.moveIndex (s : State) (x : RegIdx) : State :=
  if s.cfg.loadStoreIncrementsI then s.setI (BitVec.ofNat 16 (s.I.toNat + x.val + 1)) else s

end Sys2Proof.Machine
end

