-- ==== Sys2Proof/Machine/Flags.lean ====
section
/-! DEFINITION. Every flag computation (spec/10_state.md R14). A flag is 0 or 1 in VF, written after the main result (R9,
D13). -/

namespace Sys2Proof.Machine

/-- A flag value as VF holds it: 0 or 1 (R14). -/
def flagByte (c : Bool) : Byte := if c then 1 else 0

/-- The carry of `ADD Vx, Vy` (R74): the exact sum exceeds 0xFF. -/
def carryFlag (a b : Byte) : Byte := flagByte (decide (a.toNat + b.toNat > 0xFF))

/-- NOT borrow of `a - b` (R75, R77): 1 exactly when a ≥ b (D39). -/
def noBorrowFlag (a b : Byte) : Byte := flagByte (decide (a.toNat ≥ b.toNat))

/-- The bit a right shift by one shifts out (R76). -/
def shiftedOutRight (b : Byte) : Byte := flagByte (b.getLsbD 0)

/-- The bit a left shift by one shifts out (R78). -/
def shiftedOutLeft (b : Byte) : Byte := flagByte (b.getLsbD 7)

/-- The number `ADDI_OVERFLOW_LIMIT` stands for (R6, R88). -/
def addiLimit : AddiLimit → Nat
  | .addressSpace => 0x0FFF
  | .indexWidth => 0xFFFF

/-- The overflow flag of `ADD I, Vx` (R88): the exact sum exceeds ADDI_OVERFLOW_LIMIT. -/
def indexOverflowFlag (limit : AddiLimit) (i : Word) (b : Byte) : Byte :=
  flagByte (decide (i.toNat + b.toNat > addiLimit limit))

/-- The main result and then the flag (R9, R14): with x = F, VF holds the flag. -/
def State.setWithFlag (s : State) (x : RegIdx) (result flag : Byte) : State :=
  (s.setV x result).setV vf flag

/-- The result of a logic operation, and VF reset to 0 under LOGIC_RESETS_VF (R71 to R73). -/
def State.setLogic (s : State) (x : RegIdx) (result : Byte) : State :=
  if s.cfg.logicResetsVf then s.setWithFlag x result 0 else s.setV x result

end Sys2Proof.Machine
end

