-- ==== Sys2Proof/Machine/ControlFlow.lean ====
section
/-! DEFINITION. Control flow (spec/40_control_flow.md R58 to R67). Each meaning starts from the state after the fetch, in
which PC holds `a + 2` (R49). -/

namespace Sys2Proof.Machine

/-- SYS nnn (R58). The word `w` it reports is 0x0nnn. -/
def execSys (nnn : Addr12) (s : State) : Host.Outcome State Fault Refusal :=
  match s.cfg.sysPolicy with
  | .fault => raise (.unknownInstruction (zext16 nnn) s.fetchAddr) s
  | .nop => .next s

/-- RET (R59). -/
def execRet (s : State) : Host.Outcome State Fault Refusal :=
  match s.pop with
  | none => raise (.stackUnderflow s.fetchAddr) s
  | some (target, t) => .next (t.setPC target)

/-- JP nnn (R60). -/
def execJp (nnn : Addr12) (s : State) : Host.Outcome State Fault Refusal :=
  .next (s.setPC (zext16 nnn))

/-- CALL nnn (R61): the return address is PC, which is `a + 2`. -/
def execCall (nnn : Addr12) (s : State) : Host.Outcome State Fault Refusal :=
  match s.push s.PC with
  | none => raise (.stackOverflow s.fetchAddr) s
  | some t => .next (t.setPC (zext16 nnn))

/-- SE Vx, kk (R62). -/
def execSeImm (x : RegIdx) (kk : Byte) (s : State) : Host.Outcome State Fault Refusal :=
  .next (s.skipIf (decide (s.reg x = kk)))

/-- SNE Vx, kk (R63). -/
def execSneImm (x : RegIdx) (kk : Byte) (s : State) : Host.Outcome State Fault Refusal :=
  .next (s.skipIf (decide (s.reg x ≠ kk)))

/-- SE Vx, Vy (R64). -/
def execSeReg (x y : RegIdx) (s : State) : Host.Outcome State Fault Refusal :=
  .next (s.skipIf (decide (s.reg x = s.reg y)))

/-- SNE Vx, Vy (R65). -/
def execSneReg (x y : RegIdx) (s : State) : Host.Outcome State Fault Refusal :=
  .next (s.skipIf (decide (s.reg x ≠ s.reg y)))

/-- JP V0, nnn (R67): always V0, and the sum is not masked. At most 0x10FE, so 16 bits hold it exactly. -/
def execJpV0 (nnn : Addr12) (s : State) : Host.Outcome State Fault Refusal :=
  .next (s.setPC (zext16 nnn + zextByte (s.reg 0)))

end Sys2Proof.Machine
end

