-- ==== Sys2Proof/Machine/Display.lean ====
section
/-! DEFINITION. Display instructions and the XOR-blend and collision unit (spec/42_display.md R81 to R84). -/

namespace Sys2Proof.Machine

/-- `FB[y][x]` (R26). -/
def Framebuffer.pixel (fb : Framebuffer) (y : Fin 32) (x : Fin 64) : Bool := fb[y][x]

/-- `FB[y][x] <- FB[y][x] ^ 1`. -/
def Framebuffer.flip (fb : Framebuffer) (y : Fin 32) (x : Fin 64) : Framebuffer :=
  fb.set y (fb[y].set x (!fb[y][x]))

/-- The framebuffer with every pixel unset (R82). -/
def Framebuffer.clear : Framebuffer := Vector.replicate 32 (Vector.replicate 64 false)

/-- `rows[r][7 - c]`: bit 7 of a row byte is its leftmost pixel (R83, D35). -/
def spriteBit (row : Byte) (c : Nat) : Bool := row.getLsbD (7 - c)

/-- The loop body of R83 for one 1 bit that falls on column `px` and row `py`: clipped or wrapped, then flipped, with the
collision noted. -/
def blendPixel (edge : DrawEdge) (px py : Nat) (acc : Framebuffer × Bool) : Framebuffer × Bool :=
  if edge = .clip ∧ (px > 63 ∨ py > 31) then acc
  else
    let x : Fin 64 := Fin.ofNat 64 px
    let y : Fin 32 := Fin.ofNat 32 py
    (acc.1.flip y x, acc.2 || acc.1.pixel y x)

/-- The inner loop of R83: the 8 bits of one row byte, `c` from 0 to 7. -/
def blendRow (edge : DrawEdge) (x0 py : Nat) (row : Byte) (acc : Framebuffer × Bool) : Framebuffer × Bool :=
  (List.range 8).foldl
    (fun acc c => if spriteBit row c then blendPixel edge (x0 + c) py acc else acc) acc

/-- The outer loop of R83: the rows from `py` down. -/
def blendRows (edge : DrawEdge) (x0 : Nat) : Nat → List Byte → Framebuffer × Bool → Framebuffer × Bool
  | _, [], acc => acc
  | py, row :: rows, acc => blendRows edge x0 (py + 1) rows (blendRow edge x0 py row acc)

/-- `BlendSprite(x0, y0, rows)` (R83): the framebuffer after it, and the collision. -/
def blendSprite (edge : DrawEdge) (fb : Framebuffer) (x0 y0 : Nat) (rows : List Byte) : Framebuffer × Bool :=
  blendRows edge x0 y0 rows (fb, false)

/-- CLS (R82). -/
def execCls (s : State) : Host.Outcome State Fault Refusal :=
  .next (s.setFB Framebuffer.clear)

/-- DRW Vx, Vy, n (R84): the start wraps, the rows are read (or the error raised) before any pixel or VF is written. -/
def execDrw (x y : RegIdx) (n : Fin 16) (s : State) : Host.Outcome State Fault Refusal :=
  match s.spriteRows n with
  | .error e => raise e s
  | .ok rows =>
    let b := blendSprite s.cfg.drawEdge s.FB ((s.reg x).toNat % 64) ((s.reg y).toNat % 32) rows
    .next ((s.setFB b.1).setV vf (flagByte b.2))

end Sys2Proof.Machine
end

