-- ==== Sys2Proof/Machine/IndexMemory.lean ====
section
/-! DEFINITION. Index register and memory instructions (spec/43_index_memory.md R85 to R92). -/

namespace Sys2Proof.Machine

/-- LD I, nnn (R87). -/
def execLdI (nnn : Addr12) (s : State) : Host.Outcome State Fault Refusal :=
  .next (s.setI (zext16 nnn))

/-- ADD I, Vx (R88): the sum modulo 65536, then the overflow flag. -/
def execAddI (x : RegIdx) (s : State) : Host.Outcome State Fault Refusal :=
  .next ((s.setI (s.I + zextByte (s.reg x))).setV vf
    (indexOverflowFlag s.cfg.addiOverflowLimit s.I (s.reg x)))

/-- LD F, Vx (R89): `I <- FONT_BASE + 5 * d`, at most 1707. -/
def execLdF (x : RegIdx) (s : State) : Host.Outcome State Fault Refusal :=
  .next (s.setI (BitVec.ofNat 16 (s.cfg.fontBase.val + 5 * s.fontDigit x)))

/-- LD B, Vx (R90). -/
def execLdB (x : RegIdx) (s : State) : Host.Outcome State Fault Refusal :=
  match memWrite s.mem s.base (bcdDigits (s.reg x)) with
  | .error e => raise e s
  | .ok m => .next (s.setMem m)

/-- LD [I], Vx (R91). -/
def execStoreRegs (x : RegIdx) (s : State) : Host.Outcome State Fault Refusal :=
  match memWrite s.mem s.base (s.regBlock x) with
  | .error e => raise e s
  | .ok m => .next ((s.setMem m).moveIndex x)

/-- LD Vx, [I] (R92). -/
def execLoadRegs (x : RegIdx) (s : State) : Host.Outcome State Fault Refusal :=
  match memRead s.mem s.base (x.val + 1) with
  | .error e => raise e s
  | .ok bytes => .next ((s.setRegs (loadBlock s.V 0 bytes)).moveIndex x)

end Sys2Proof.Machine
end

