-- ==== Sys2Proof/Machine/KeysTimers.lean ====
section
/-! DEFINITION. Key and timer instructions (spec/44_keys_timers.md R93 to R99). -/

namespace Sys2Proof.Machine

/-- The error of SKP and SKNP on a register above 0xF (R96): it records the index. -/
def badKey (s : State) (x : RegIdx) : ErrorRecord := .invalidKeyIndex (Int.ofNat (s.reg x).toNat)

/-- SKP Vx (R93). -/
def execSkp (x : RegIdx) (s : State) : Host.Outcome State Fault Refusal :=
  match s.keyOperand x with
  | none => raise (badKey s x) s
  | some k => .next (s.skipIf s.keys[k])

/-- SKNP Vx (R94). -/
def execSknp (x : RegIdx) (s : State) : Host.Outcome State Fault Refusal :=
  match s.keyOperand x with
  | none => raise (badKey s x) s
  | some k => .next (s.skipIf (!s.keys[k]))

/-- LD Vx, DT (R95). -/
def execLdVxDt (x : RegIdx) (s : State) : Host.Outcome State Fault Refusal :=
  .next (s.setV x s.DT)

/-- LD Vx, K (R97): with no key pressed, PC goes back to `a` and the step is repeated; else the lowest pressed key. -/
def execLdVxK (x : RegIdx) (s : State) : Host.Outcome State Fault Refusal :=
  match lowestPressed s.keys with
  | none => .next (s.setPC s.fetchAddr)
  | some k => .next (s.setV x (BitVec.ofNat 8 k.val))

/-- LD DT, Vx (R98). -/
def execLdDtVx (x : RegIdx) (s : State) : Host.Outcome State Fault Refusal :=
  .next (s.setDT (s.reg x))

/-- LD ST, Vx (R99). -/
def execLdStVx (x : RegIdx) (s : State) : Host.Outcome State Fault Refusal :=
  .next (s.setST (s.reg x))

end Sys2Proof.Machine
end

