-- ==== Sys2Proof/Syntax.lean ====
section
/-! DEFINITION. The instructions of the opcode map (spec/30_encoding.md R52, spec/opcode_table.json): one constructor
per row, in the table's order. Operand fields are those of R47. -/

namespace Sys2Proof

inductive Instr where
  /-- `0nnn`, SYS nnn (R58). -/
  | sys (nnn : Addr12)
  /-- `00E0`, CLS (R82). -/
  | cls
  /-- `00EE`, RET (R59). -/
  | ret
  /-- `1nnn`, JP nnn (R60). -/
  | jp (nnn : Addr12)
  /-- `2nnn`, CALL nnn (R61). -/
  | call (nnn : Addr12)
  /-- `3xkk`, SE Vx, kk (R62). -/
  | seImm (x : RegIdx) (kk : Byte)
  /-- `4xkk`, SNE Vx, kk (R63). -/
  | sneImm (x : RegIdx) (kk : Byte)
  /-- `5xyn`, SE Vx, Vy (R64); n is not examined (R51). -/
  | seReg (x y : RegIdx)
  /-- `6xkk`, LD Vx, kk (R68). -/
  | ldImm (x : RegIdx) (kk : Byte)
  /-- `7xkk`, ADD Vx, kk (R69). -/
  | addImm (x : RegIdx) (kk : Byte)
  /-- `8xy0`, LD Vx, Vy (R70). -/
  | ldReg (x y : RegIdx)
  /-- `8xy1`, OR Vx, Vy (R71). -/
  | or (x y : RegIdx)
  /-- `8xy2`, AND Vx, Vy (R72). -/
  | and (x y : RegIdx)
  /-- `8xy3`, XOR Vx, Vy (R73). -/
  | xor (x y : RegIdx)
  /-- `8xy4`, ADD Vx, Vy (R74). -/
  | addReg (x y : RegIdx)
  /-- `8xy5`, SUB Vx, Vy (R75). -/
  | sub (x y : RegIdx)
  /-- `8xy6`, SHR Vx, with Vy named by the word (R76). -/
  | shr (x y : RegIdx)
  /-- `8xy7`, SUBN Vx, Vy (R77). -/
  | subn (x y : RegIdx)
  /-- `8xyE`, SHL Vx, with Vy named by the word (R78). -/
  | shl (x y : RegIdx)
  /-- `9xyn`, SNE Vx, Vy (R65); n is not examined (R51). -/
  | sneReg (x y : RegIdx)
  /-- `Annn`, LD I, nnn (R87). -/
  | ldI (nnn : Addr12)
  /-- `Bnnn`, JP V0, nnn (R67). -/
  | jpV0 (nnn : Addr12)
  /-- `Cxkk`, RND Vx, kk (R80). -/
  | rnd (x : RegIdx) (kk : Byte)
  /-- `Dxyn`, DRW Vx, Vy, n (R84); n counts rows, 0 to 15 (R48). -/
  | drw (x y : RegIdx) (n : Fin 16)
  /-- `Ex9E`, SKP Vx (R93). -/
  | skp (x : RegIdx)
  /-- `ExA1`, SKNP Vx (R94). -/
  | sknp (x : RegIdx)
  /-- `Fx07`, LD Vx, DT (R95). -/
  | ldVxDt (x : RegIdx)
  /-- `Fx0A`, LD Vx, K (R97). -/
  | ldVxK (x : RegIdx)
  /-- `Fx15`, LD DT, Vx (R98). -/
  | ldDtVx (x : RegIdx)
  /-- `Fx18`, LD ST, Vx (R99). -/
  | ldStVx (x : RegIdx)
  /-- `Fx1E`, ADD I, Vx (R88). -/
  | addI (x : RegIdx)
  /-- `Fx29`, LD F, Vx (R89). -/
  | ldF (x : RegIdx)
  /-- `Fx33`, LD B, Vx (R90). -/
  | ldB (x : RegIdx)
  /-- `Fx55`, LD [I], Vx (R91). -/
  | storeRegs (x : RegIdx)
  /-- `Fx65`, LD Vx, [I] (R92). -/
  | loadRegs (x : RegIdx)
  deriving DecidableEq, Repr

end Sys2Proof
end

