-- ==== Sys2Proof/Machine/Fetch.lean ====
section
/-! DEFINITION. Fetching an instruction (spec/30_encoding.md R49), and placing a word where the next fetch reads. -/

namespace Sys2Proof.Machine

/-- The fetch of R49: MemoryOutOfRange(max(a, 0x1000)) when PC + 1 > 0xFFF (D16), else the word at PC and PC + 1, high
byte first (R37). PC needs no alignment (R19, R38). Only the word is answered: `State.advance` moves PC. -/
def fetchWord (s : State) : Except ErrorRecord Word :=
  if s.PC.toNat + 1 > 0xFFF then .error (outOfRange s.PC.toNat)
  else .ok (wordOfBytes (Memory.readByte s.mem s.PC.toNat) (Memory.readByte s.mem (s.PC.toNat + 1)))

/-- The state from which a word at PC is fetched: not halted, and PC where two bytes lie in range; a PC already in range stays
(log entry 7). -/
def State.readyToFetch (s : State) : State :=
  { s with halted := none, PC := if s.PC.toNat + 1 > 0xFFF then 0x200 else s.PC }

/-- The bytes placed at PC. -/
def State.placeAtPC (s : State) (bytes : List Byte) : State :=
  s.setMem (Memory.writeBytes s.mem s.PC.toNat bytes)

end Sys2Proof.Machine
end

