-- ==== Sys2Proof/Machine/Step.lean ====
section
/-! DEFINITION. The step cycle (spec/30_encoding.md R49), with the order of checks of spec/60_exceptions.md R103. -/

namespace Sys2Proof.Machine

/-- `Step()` of R49. A halted core changes nothing (R102). A fetch that fails leaves PC at `a`; an unknown word leaves it at
`a + 2` and reports the word and `a`. The result the host sees is `Machine.stepResult` of Commands.lean. -/
def step (s : State) : Host.Outcome State Fault Refusal :=
  match s.halted with
  | some _ => .next s
  | none =>
    match fetchWord s with
    | .error e => .next (s.raise e)
    | .ok w =>
      match decodeWord w with
      | .error _ => .next (s.advance.raise (.unknownInstruction w s.PC))
      | .ok i => exec i s.advance

/-- `s` with the instruction of an opcode-table word stored where `step` fetches next, so that the next step runs it. Nothing
else changes in a state that is not halted and whose PC is at most 0xFFE (log entry 7). -/
def State.withFetchWord (s : State) (nbits w : Nat) : State :=
  s.readyToFetch.placeAtPC (tableBytes nbits w)

end Sys2Proof.Machine
end

