-- ==== Sys2Proof/Machine/Commands.lean ====
section
/-! DEFINITION. The host interface (spec/60_exceptions.md R108 to R114, spec/70_reset_and_hazards.md R120 to R124): the six
commands, each one atomic transition, and sequences of them. -/

namespace Sys2Proof.Machine

/-- The commands of R108. -/
inductive Command where
  | load (bytes : List Byte)
  | step
  | tickTimers
  | setKey (index : Int) (pressed : Bool)
  | framebufferSnapshot
  | isSoundActive
  deriving DecidableEq, Repr

/-- What a command returns to the host (R108). -/
inductive Result where
  | ok
  | error (e : ErrorRecord)
  | grid (g : Framebuffer)
  | active (b : Bool)
  deriving DecidableEq, Repr

/-- The reset state of R30 with no program, for a machine of parameters `cfg` whose random source has been drawn from `draws`
times: memory is zero but for the font image. -/
def State.construct (cfg : Config) (draws : Nat) : State :=
  { State.reset with
    cfg := cfg
    mem := Memory.writeBytes [] cfg.fontBase.val cfg.fontImage.toList
    drawIndex := draws }

/-- `load(bytes)` (R120, R121): the length is checked before anything is written. The parameters and the random source are not
part of what it resets (log entry 18). -/
def loadProgram (bytes : List Byte) (s : State) : State × Result :=
  if bytes.length > maxProgram then (s, .error (.programTooLarge bytes.length))
  else
    let r := State.construct s.cfg s.drawIndex
    (r.setMem (Memory.writeBytes r.mem loadAddr bytes), .ok)

/-- A countdown by one, with floor 0 (R24, R25). -/
def countDown (b : Byte) : Byte := if b.toNat > 0 then b - 1 else b

/-- `tick_timers()` (R111): DT and ST, nothing else, halted or not (R110). -/
def tickTimers (s : State) : State := (s.setDT (countDown s.DT)).setST (countDown s.ST)

/-- `set_key(index, pressed)` (R112): a bad index is refused with no change and no halt (D28). -/
def setKey (index : Int) (pressed : Bool) (s : State) : State × Result :=
  if h : 0 ≤ index ∧ index ≤ 15 then (s.setKeyBit ⟨index.toNat, by omega⟩ pressed, .ok)
  else (s, .error (.invalidKeyIndex index))

/-- `framebuffer_snapshot()` (R113): a copy, true where a pixel is 1. -/
def framebufferSnapshot (s : State) : Framebuffer := s.FB

/-- `is_sound_active()` (R114): ST ≠ 0. -/
def isSoundActive (s : State) : Bool := decide (s.ST ≠ 0)

/-- The result of `step()` (R109), read from the state after it: the error it stored, or the error a halted core already
stored (R102); else ok, a waiting step included. -/
def stepResult (t : State) : Result :=
  match t.halted with
  | none => .ok
  | some e => .error e

/-- One command of the host, one atomic transition (R123), with its result. -/
def issue (c : Command) (s : State) : Host.Outcome (State × Result) Fault Refusal :=
  match c with
  | .load bytes => .next (loadProgram bytes s)
  | .step =>
    match step s with
    | .next t => .next (t, stepResult t)
    | .fault r => .fault r
    | .refused r => .refused r
  | .tickTimers => .next (tickTimers s, .ok)
  | .setKey index pressed => .next (setKey index pressed s)
  | .framebufferSnapshot => .next (s, .grid (framebufferSnapshot s))
  | .isSoundActive => .next (s, .active (isSoundActive s))

/-- A schedule: the commands of a session in their one total order (R41, R123), with the results in that order. -/
def runSchedule : List Command → State → Host.Outcome (State × List Result) Fault Refusal
  | [], s => .next (s, [])
  | c :: cs, s =>
    match issue c s with
    | .fault r => .fault r
    | .refused r => .refused r
    | .next (t, r) =>
      match runSchedule cs t with
      | .next (u, rs) => .next (u, r :: rs)
      | .fault r => .fault r
      | .refused r => .refused r

end Sys2Proof.Machine
end

