-- ==== Sys2Proof/Safety.lean ====
section
/-! DEFINITION. The terms statements are made in: what may change and what may not (frames), where a step stands (about to run
an instruction, waiting, spinning, halted), and the invariant of the machine. -/

namespace Sys2Proof.Machine

/-! ### Frames -/

/-- The parts of the state, one per field. -/
inductive StatePart where
  | cfg | mem | V | I | PC | stack | SP | DT | ST | FB | keys | halted | drawIndex
  deriving DecidableEq, Repr

/-- A part is unchanged from `s` to `t`. For memory: every byte reads as before. -/
def StatePart.Same (p : StatePart) (s t : State) : Prop :=
  match p with
  | .cfg => t.cfg = s.cfg
  | .mem => ∀ a, t.mem.readByte a = s.mem.readByte a
  | .V => ∀ k : RegIdx, t.V[k] = s.V[k]
  | .I => t.I = s.I
  | .PC => t.PC = s.PC
  | .stack => ∀ k : Fin 16, t.stack[k] = s.stack[k]
  | .SP => t.SP = s.SP
  | .DT => t.DT = s.DT
  | .ST => t.ST = s.ST
  | .FB => ∀ (y : Fin 32) (x : Fin 64), t.FB[y][x] = s.FB[y][x]
  | .keys => ∀ k : KeyIdx, t.keys[k] = s.keys[k]
  | .halted => t.halted = s.halted
  | .drawIndex => t.drawIndex = s.drawIndex

/-- Every part but the listed ones is unchanged: the frame of an instruction or a command. -/
def ChangesOnly (parts : List StatePart) (s t : State) : Prop :=
  ∀ p, p ∉ parts → p.Same s t

/-- Every V register but the listed ones is unchanged. -/
def RegsSameExcept (xs : List RegIdx) (s t : State) : Prop :=
  ∀ k, k ∉ xs → t.V[k] = s.V[k]

/-! ### Where a step stands -/

/-- The word at PC: `mem[PC] ++ mem[PC + 1]` (R37). -/
def State.wordAtPC (s : State) : Word :=
  s.mem.readByte s.PC.toNat ++ s.mem.readByte (s.PC.toNat + 1)

/-- The next step fetches and runs `i`: the core is not halted, both bytes at PC are in range, and they decode to `i` (R49). -/
def State.AtInstr (s : State) (i : Instr) : Prop :=
  s.halted = none ∧ s.PC.toNat ≤ 0xFFE ∧ decodeWord s.wordAtPC = .ok i

/-- Waiting (R119): PC at an `LD Vx, K` and no key pressed. -/
def State.Waiting (s : State) : Prop :=
  (∃ x, s.AtInstr (.ldVxK x)) ∧ ∀ k : KeyIdx, s.keys[k] = false

/-- A spin (R130): PC = a, and the word at a is `JP a`. -/
def State.Spinning (s : State) : Prop :=
  ∃ nnn : Addr12, s.AtInstr (.jp nnn) ∧ s.PC = nnn.setWidth 16

/-! ### The invariant -/

/-- The records a halted core can hold: never ProgramTooLarge (R100), the address of an instruction that was fetched, an
address above 0xFFF (R34), or a key index of 8 bits above 0xF (R96). -/
def ErrorRecord.legalHalt : ErrorRecord → Bool
  | .programTooLarge _ => false
  | .unknownInstruction _ a => decide (a.toNat ≤ 0xFFE)
  | .stackOverflow a => decide (a.toNat ≤ 0xFFE)
  | .stackUnderflow a => decide (a.toNat ≤ 0xFFE)
  | .memoryOutOfRange m => decide (0x1000 ≤ m)
  | .invalidKeyIndex k => decide (16 ≤ k ∧ k ≤ 255)

/-- The halt status is none or a legal record. -/
def haltLegal : Option ErrorRecord → Bool
  | none => true
  | some e => e.legalHalt

/-- The invariant: memory is in its canonical form and inside the address space (R32), PC is at most 0x10FE (R18), every stack
entry is a return address at most 0x1000 (R61), and the halt status is legal (R28, R100). -/
abbrev State.Inv (s : State) : Prop :=
  s.mem.wf ∧ s.PC.toNat ≤ 0x10FE ∧ (∀ k : Fin 16, s.stack[k].toNat ≤ 0x1000) ∧ haltLegal s.halted = true

end Sys2Proof.Machine
end

