-- ==== Sys2Proof/Certificates/Slice0/Obligations.lean ====
section
/-! DEFINITION. The statements for the provers, each from the rules of spec/ its docstring cites. `exec` runs on the state after
the fetch, so `s.PC = a + 2` says that the instruction was fetched from `a` (R16, R49). "Trap" statements and "completion"
statements are conjuncts of one statement where one rule gives both. -/

open Sys2Proof Sys2Proof.Machine

namespace Sys2Proof.Machine

/-- A sprite of `n` rows, row `r` being the byte `row r`, drawn from column x0 and row y0, has a 1 bit on pixel (x, y): R83, with
bit 7 of a row its leftmost pixel. Under clip a pixel past an edge is dropped; under wrap it wraps. -/
def SpriteCovers (edge : DrawEdge) (x0 y0 n : Nat) (row : Nat → Byte) (y : Fin 32) (x : Fin 64) : Prop :=
  ∃ r c, r < n ∧ c < 8 ∧ (row r).getLsbD (7 - c) = true ∧
    match edge with
    | .clip => x0 + c = x.val ∧ y0 + r = y.val
    | .wrap => (x0 + c) % 64 = x.val ∧ (y0 + r) % 32 = y.val

/-- The table of R17 for a step that runs `i` from `s` without an error, with a = `s.PC`. -/
def pcAfter (i : Instr) (s : State) : Word :=
  match i with
  | .jp nnn | .call nnn => nnn.setWidth 16
  | .jpV0 nnn => nnn.setWidth 16 + (s.V[(0 : RegIdx)]).setWidth 16
  | .ret => (s.stack[s.SP.val - 1]?).getD 0
  | .seImm x kk => if s.V[x] = kk then s.PC + 4 else s.PC + 2
  | .sneImm x kk => if s.V[x] = kk then s.PC + 2 else s.PC + 4
  | .seReg x y => if s.V[x] = s.V[y] then s.PC + 4 else s.PC + 2
  | .sneReg x y => if s.V[x] = s.V[y] then s.PC + 2 else s.PC + 4
  | .skp x => if s.keys[s.V[x].toNat]? = some true then s.PC + 4 else s.PC + 2
  | .sknp x => if s.keys[s.V[x].toNat]? = some true then s.PC + 2 else s.PC + 4
  | .ldVxK _ => if ∀ k : KeyIdx, s.keys[k] = false then s.PC else s.PC + 2
  | _ => s.PC + 2

/-- The V registers an instruction writes as its destination, a flag in VF apart. -/
def destRegs : Instr → List RegIdx
  | .ldImm x _ | .addImm x _ | .ldReg x _ | .or x _ | .and x _ | .xor x _ | .addReg x _ | .sub x _ | .shr x _
  | .subn x _ | .shl x _ | .rnd x _ | .ldVxDt x | .ldVxK x => [x]
  | .loadRegs x => (List.finRange 16).filter (fun k => decide (k ≤ x))
  | _ => []

/-- The instructions of the table of R14, the quirk row apart: they write VF as a flag on every completed run. -/
def writesFlag : Instr → Bool
  | .addReg _ _ | .sub _ _ | .shr _ _ | .subn _ _ | .shl _ _ | .drw _ _ _ | .addI _ => true
  | _ => false

/-- The quirk row of R14. -/
def isLogic : Instr → Bool
  | .or _ _ | .and _ _ | .xor _ _ => true
  | _ => false

/-- Running instructions one after the other. -/
def execSeq : List Instr → State → Host.Outcome State Fault Refusal
  | [], s => .next s
  | i :: is, s =>
    match exec i s with
    | .next t => execSeq is t
    | o => o

end Sys2Proof.Machine

/-! ### Encoding -/

/-- R52: words written out from the opcode map, some from each of the files 40 to 44 of spec/, decode to the instruction they
stand for, one of them from bytes (R45), and one word of each row of R53 is refused. The names unknownFamily8, unknownFamilyE
and unknownFamilyF of the refusals are the model's choice, where the spec has the one verdict Unknown (log entry 20). The
encodings are marked general knowledge by the spec (log entry 16). -/
def Obligations.SpecWordsDecode : Prop :=
  decodeWord 0x0123 = .ok (.sys 0x123) ∧ decodeWord 0x00E0 = .ok .cls ∧ decodeWord 0x00EE = .ok .ret ∧
  decodeWord 0x220A = .ok (.call 0x20A) ∧ decodeWord 0x5121 = .ok (.seReg 1 2) ∧
  decodeWord 0x7302 = .ok (.addImm 3 0x02) ∧ decodeWord 0x812E = .ok (.shl 1 2) ∧
  decodeWord 0xB300 = .ok (.jpV0 0x300) ∧ decodeWord 0xD013 = .ok (.drw 0 1 3) ∧
  decodeWord 0xE1A1 = .ok (.sknp 1) ∧ decodeWord 0xF30A = .ok (.ldVxK 3) ∧
  decodeWord 0xFF55 = .ok (.storeRegs 15) ∧ decodeBytes [0xF0, 0x33, 0x12] = .ok (.ldB 0, [0x12]) ∧
  decodeWord 0x8008 = .error (.unknownFamily8 0x8008) ∧ decodeWord 0xE000 = .error (.unknownFamilyE 0xE000) ∧
  decodeWord 0xF030 = .error (.unknownFamilyF 0xF030)

/-- Decoding the encoding of every well-formed instruction gives it back, as a word (R50, R52) and as bytes (R45). The
encoder, the n = 0 it writes for 5xyn and 9xyn included, is the model's (log entry 10). -/
def Obligations.DecodeEncodeRoundTrip : Prop :=
  ∀ i : Instr, i.WellFormed →
    decodeWord (encode i) = .ok i ∧ ∀ rest, decodeBytes (encodeBytes i ++ rest) = .ok (i, rest)

/-- R52: a word that decodes lies in the row of what it decodes to, and a word that lies in a row decodes into that row, the
SYS row giving way to 00E0 and 00EE. The encodings are marked general knowledge by the spec (log entry 16). -/
def Obligations.DecodingFollowsTheOpcodeMap : Prop :=
  (∀ w i, decodeWord w = .ok i → i.WellFormed ∧ w &&& rowMask i = rowMatch i) ∧
  (∀ w j, w &&& rowMask j = rowMatch j → (rowMatch j = 0x0000 → w ≠ 0x00E0 ∧ w ≠ 0x00EE) →
    ∃ i, decodeWord w = .ok i ∧ rowMask i = rowMask j ∧ rowMatch i = rowMatch j)

/-- R50, R53: the words with no instruction are exactly those of the table of R53. R53 is an inference of the spec from R50. -/
def Obligations.UnknownWordsAreExactlyThese : Prop :=
  ∀ w : Word, (∃ e, decodeWord w = .error e) ↔
    (w >>> 12 = 0x8 ∧ w &&& 0xF ∈ [0x8, 0x9, 0xA, 0xB, 0xC, 0xD, 0xF]) ∨
    (w >>> 12 = 0xE ∧ w &&& 0xFF ∉ [0x9E, 0xA1]) ∨
    (w >>> 12 = 0xF ∧ w &&& 0xFF ∉ [0x07, 0x0A, 0x15, 0x18, 0x1E, 0x29, 0x33, 0x55, 0x65])

/-- The other direction of the round trip: the word of what a word decodes to is the word itself, but for the low nibble that
families 0x5 and 0x9 do not examine (R51), which the encoder writes as 0. That n is not examined is the spec's own choice D12
(log entry 10), and the n = 0 of the encoder is the model's. -/
def Obligations.EncodeOfDecodedWord : Prop :=
  ∀ w i, decodeWord w = .ok i →
    encode i = if w >>> 12 = 0x5 ∨ w >>> 12 = 0x9 then w &&& 0xFFF0 else w

/-! ### The step cycle and errors -/

/-- R49: a halted core changes nothing; a fetch out of range raises and leaves PC; an unknown word raises with PC advanced;
and otherwise the step is `exec` of the decoded instruction, well-formed, at the state with PC advanced by 2. The fetch error
and the PC it leaves are the spec's own choice D16, the halt D14. -/
def Obligations.StepRunsTheDecodedInstruction : Prop :=
  ∀ s : State,
    (∀ e, s.halted = some e → step s = .next s) ∧
    (s.halted = none → s.PC.toNat + 1 > 0xFFF →
      step s = .next { s with halted := some (.memoryOutOfRange (max s.PC.toNat 0x1000)) }) ∧
    (s.halted = none → s.PC.toNat + 1 ≤ 0xFFF → ∀ e, decodeWord s.wordAtPC = .error e →
      step s = .next { s with PC := s.PC + 2, halted := some (.unknownInstruction s.wordAtPC s.PC) }) ∧
    (s.halted = none → s.PC.toNat + 1 ≤ 0xFFF → ∀ i, decodeWord s.wordAtPC = .ok i →
      i.WellFormed ∧ step s = exec i { s with PC := s.PC + 2 })

/-- Every step, and every instruction from every state, answers a next state: nothing faults and nothing is refused (R100,
R101; log entry 1). That an error is a next state is the model's choice (log entry 1). -/
def Obligations.StepAlwaysAnswersNext : Prop :=
  (∀ s, ∃ t, step s = .next t) ∧ ∀ i s, ∃ t, exec i s = .next t

/-- R101: a step that raises an error returns it, stores it, leaves PC at a when the fetch failed and at a + 2 otherwise, and
leaves every other element of state as it was before the step. That every error is precise is the spec's own choice D15, the
halt D14. -/
def Obligations.ErrorsArePrecise : Prop :=
  ∀ s t e, s.halted = none → step s = .next t → t.halted = some e →
    issue .step s = .next (t, .error e) ∧
    t = { s with PC := if s.PC.toNat + 1 > 0xFFF then s.PC else s.PC + 2, halted := some e }

/-- R102: while halted, `step` changes nothing and returns the stored error; only `load` clears the halt; the other four
commands do what they do on a core that is not halted. The halt is the spec's own choice D14, commands acting while halted
D25. -/
def Obligations.HaltedCoreStaysHalted : Prop :=
  ∀ s e, s.halted = some e →
    issue .step s = .next (s, .error e) ∧
    (∀ bytes, bytes.length ≤ 3584 → ∃ t, issue (.load bytes) s = .next (t, .ok) ∧ t.halted = none) ∧
    (∀ c, c ≠ .step → (∀ bytes, c ≠ .load bytes) →
      ∃ t r, issue c { s with halted := none } = .next (t, r) ∧ t.halted = none ∧
        issue c s = .next ({ t with halted := some e }, r))

/-- R17: PC after each kind of step. R17 is an inference of the spec from the instruction rules. -/
def Obligations.PcAfterEachKindOfStep : Prop :=
  ∀ s t, step s = .next t →
    (∀ e, s.halted = some e → t.PC = s.PC) ∧
    (s.halted = none → s.PC.toNat + 1 > 0xFFF → t.PC = s.PC) ∧
    (s.halted = none → s.PC.toNat + 1 ≤ 0xFFF → t.halted ≠ none → t.PC = s.PC + 2) ∧
    (∀ i, s.AtInstr i → t.halted = none → t.PC = pcAfter i s)

/-! ### Invariants and whole-machine rules -/

/-- The state after reset meets the invariant that `StepKeepsTheInvariant` says every step keeps. The canonical form of memory
in it is the model's choice (log entry 6), its bound on PC the spec's own choice D17. -/
def Obligations.ResetMeetsTheInvariant : Prop := State.reset.Inv

/-- Every step keeps the invariant (memory in canonical form and in range, PC at most 0x10FE, stack entries at most 0x1000,
the halt record legal): R18, R22, R32, R34, R61, R96, R100. The canonical form of memory is the model's (log entry 6), the
bound on PC the spec's own choice D17. -/
def Obligations.StepKeepsTheInvariant : Prop :=
  ∀ s t, s.Inv → step s = .next t → t.Inv

/-- Every schedule of host commands keeps the invariant (R123). The canonical form of memory in it is the model's choice (log
entry 6), its bound on PC the spec's own choice D17, and commands as atomic transitions the spec's own choice D29. -/
def Obligations.EveryScheduleKeepsTheInvariant : Prop :=
  ∀ cs s t rs, s.Inv → runSchedule cs s = .next (t, rs) → t.Inv

/-- For each field of State, the only instructions that can change it: V (R13, R14), PC beyond the advance of the fetch (R17),
I (R20), the stack and SP (R21, R22), the timers (R24, R25), FB (R26), keys (R27), memory (R32) and halted (R103: the
instructions with a check of their own, and SYS under SYS_POLICY = fault, the spec's own choice D11). The clauses on cfg and
drawIndex are about the model's own fields (log entries 2 and 3). -/
def Obligations.WhichInstructionsWriteWhat : Prop :=
  ∀ i s t, exec i s = .next t →
    t.cfg = s.cfg ∧ t.keys = s.keys ∧
    (t.V ≠ s.V → destRegs i ≠ [] ∨ writesFlag i = true) ∧
    (t.PC ≠ s.PC → i = .ret ∨
      (∃ nnn, i = .jp nnn ∨ i = .call nnn ∨ i = .jpV0 nnn) ∨
      (∃ x kk, i = .seImm x kk ∨ i = .sneImm x kk) ∨ (∃ x y, i = .seReg x y ∨ i = .sneReg x y) ∨
      ∃ x, i = .skp x ∨ i = .sknp x ∨ i = .ldVxK x) ∧
    (t.halted ≠ s.halted → i = .ret ∨
      (s.cfg.sysPolicy = .fault ∧ ∃ nnn, i = .sys nnn) ∨ (∃ nnn, i = .call nnn) ∨ (∃ x y n, i = .drw x y n) ∨
      ∃ x, i = .ldB x ∨ i = .storeRegs x ∨ i = .loadRegs x ∨ i = .skp x ∨ i = .sknp x) ∧
    (t.stack ≠ s.stack → ∃ nnn, i = .call nnn) ∧
    (t.SP ≠ s.SP → i = .ret ∨ ∃ nnn, i = .call nnn) ∧
    (t.DT ≠ s.DT → ∃ x, i = .ldDtVx x) ∧
    (t.ST ≠ s.ST → ∃ x, i = .ldStVx x) ∧
    (t.FB ≠ s.FB → i = .cls ∨ ∃ x y n, i = .drw x y n) ∧
    (t.mem ≠ s.mem → ∃ x, i = .ldB x ∨ i = .storeRegs x) ∧
    (t.I ≠ s.I → (∃ nnn, i = .ldI nnn) ∨ (∃ x, i = .addI x ∨ i = .ldF x) ∨
      (s.cfg.loadStoreIncrementsI = true ∧ ∃ x, i = .storeRegs x ∨ i = .loadRegs x)) ∧
    (t.drawIndex ≠ s.drawIndex → ∃ x kk, i = .rnd x kk)

/-- R13, R14: a V register changes only as a destination, or as VF where the instruction writes a flag; and a flag is 0 or 1.
The flag being written last is the spec's own choice D13. -/
def Obligations.RegistersChangeOnlyAsDestinationOrFlag : Prop :=
  ∀ i s t, exec i s = .next t →
    (∀ k : RegIdx, t.V[k] ≠ s.V[k] → k ∈ destRegs i ∨
      (k = vf ∧ (writesFlag i = true ∨ (isLogic i = true ∧ s.cfg.logicResetsVf = true)))) ∧
    (writesFlag i = true → t.halted = s.halted → s.halted = none → t.V[vf] = 0 ∨ t.V[vf] = 1)

/-! ### Control flow -/

/-- R58: SYS raises UnknownInstruction(w, a) under SYS_POLICY = fault and has no effect under nop. SYS_POLICY is the spec's
own choice D11, here for both values. SYS_POLICY is the spec's own choice D11, here for both values. The word reported is
rebuilt from the operand (log entry 21). -/
def Obligations.SysFollowsItsPolicy : Prop :=
  ∀ (nnn : Addr12) (s : State) (a : Word), s.PC = a + 2 →
    (nnn ≠ 0x0E0 → nnn ≠ 0x0EE → decodeWord (0x0#4 ++ nnn) = .ok (.sys nnn)) ∧
    (s.cfg.sysPolicy = .fault →
      exec (.sys nnn) s = .next { s with halted := some (.unknownInstruction (0x0#4 ++ nnn) a) }) ∧
    (s.cfg.sysPolicy = .nop → exec (.sys nnn) s = .next s)

/-- R59: RET pops PC; on an empty stack it raises StackUnderflow(a). -/
def Obligations.RetPopsTheReturnAddress : Prop :=
  decodeWord 0x00EE = .ok .ret ∧
  ∀ (s : State) (a : Word), s.PC = a + 2 →
    (s.SP = 0 → exec .ret s = .next { s with halted := some (.stackUnderflow a) }) ∧
    (∀ k : Fin 16, s.SP.val = k.val + 1 →
      ∃ t, exec .ret s = .next t ∧ t.SP.val = k.val ∧ t.PC = s.stack[k] ∧ ChangesOnly [.SP, .PC] s t)

/-- R60: JP jumps to nnn. R60 is marked general knowledge by the spec. -/
def Obligations.JpJumps : Prop :=
  ∀ (nnn : Addr12) (s : State),
    decodeWord (0x1#4 ++ nnn) = .ok (.jp nnn) ∧
    ∃ t, exec (.jp nnn) s = .next t ∧ t.PC.toNat = nnn.toNat ∧ ChangesOnly [.PC] s t

/-- R61: CALL pushes PC and jumps; on a full stack it raises StackOverflow(a). The address pushed is the spec's own choice
D32. -/
def Obligations.CallPushesTheReturnAddress : Prop :=
  ∀ (nnn : Addr12) (s : State) (a : Word), s.PC = a + 2 →
    decodeWord (0x2#4 ++ nnn) = .ok (.call nnn) ∧
    (s.SP = 16 → exec (.call nnn) s = .next { s with halted := some (.stackOverflow a) }) ∧
    (∀ k : Fin 16, s.SP.val = k.val →
      ∃ t, exec (.call nnn) s = .next t ∧ t.SP.val = k.val + 1 ∧ t.stack[k] = a + 2 ∧
        (∀ j : Fin 16, j ≠ k → t.stack[j] = s.stack[j]) ∧ t.PC.toNat = nnn.toNat ∧
        ChangesOnly [.stack, .SP, .PC] s t)

/-- A call and the return of its subroutine: PC is the address after the call again, and SP is as it was (R59, R61). The
address pushed is the spec's own choice D32. -/
def Obligations.ReturnUndoesCall : Prop :=
  ∀ (nnn : Addr12) (s t : State) (p : Word), s.SP.val < 16 → exec (.call nnn) s = .next t →
    ∃ u, exec .ret { t with PC := p } = .next u ∧ u.PC = s.PC ∧ u.SP = s.SP

/-- R61: "16 nested subroutine calls succeed; a 17th call fails with `StackOverflow`". -/
def Obligations.SixteenNestedCallsSucceed : Prop :=
  ∀ (s : State) (targets : List Addr12), s.SP = 0 → targets.length = 16 →
    ∃ t, execSeq (targets.map Instr.call) s = .next t ∧ t.SP = 16 ∧ t.halted = s.halted ∧
      ∀ nnn a, t.PC = a + 2 → exec (.call nnn) t = .next { t with halted := some (.stackOverflow a) }

/-- R62, R63: the skips on an immediate. -/
def Obligations.SkipsOnAnImmediate : Prop :=
  ∀ (x : RegIdx) (kk : Byte) (s : State),
    decodeWord (wordXKK 0x3 x kk) = .ok (.seImm x kk) ∧ decodeWord (wordXKK 0x4 x kk) = .ok (.sneImm x kk) ∧
    (∃ t, exec (.seImm x kk) s = .next t ∧ ChangesOnly [.PC] s t ∧
      t.PC = if s.V[x] = kk then s.PC + 2 else s.PC) ∧
    (∃ t, exec (.sneImm x kk) s = .next t ∧ ChangesOnly [.PC] s t ∧
      t.PC = if s.V[x] = kk then s.PC else s.PC + 2)

/-- R64, R65: the skips on two registers, for every low nibble (R51). That n is not examined is the spec's own choice D12 (log
entry 10). -/
def Obligations.SkipsOnTwoRegisters : Prop :=
  ∀ (x y : RegIdx) (s : State),
    (∀ n, decodeWord (wordXYN 0x5 x y n) = .ok (.seReg x y) ∧ decodeWord (wordXYN 0x9 x y n) = .ok (.sneReg x y)) ∧
    (∃ t, exec (.seReg x y) s = .next t ∧ ChangesOnly [.PC] s t ∧
      t.PC = if s.V[x] = s.V[y] then s.PC + 2 else s.PC) ∧
    (∃ t, exec (.sneReg x y) s = .next t ∧ ChangesOnly [.PC] s t ∧
      t.PC = if s.V[x] = s.V[y] then s.PC else s.PC + 2)

/-- R67: JP V0 jumps to nnn + V0, exactly. That the register is V0 and the sum is not masked are the spec's own choices D4 and
D17. -/
def Obligations.JpV0AddsV0 : Prop :=
  ∀ (nnn : Addr12) (s : State),
    decodeWord (0xB#4 ++ nnn) = .ok (.jpV0 nnn) ∧
    ∃ t, exec (.jpV0 nnn) s = .next t ∧ t.PC.toNat = nnn.toNat + (s.V[(0 : RegIdx)]).toNat ∧ ChangesOnly [.PC] s t

/-! ### Registers and ALU -/

/-- R68: the immediate is loaded. -/
def Obligations.LoadImmediate : Prop :=
  ∀ (x : RegIdx) (kk : Byte) (s : State),
    decodeWord (wordXKK 0x6 x kk) = .ok (.ldImm x kk) ∧
    ∃ t, exec (.ldImm x kk) s = .next t ∧ t.V[x] = kk ∧ RegsSameExcept [x] s t ∧ ChangesOnly [.V] s t

/-- R69: the immediate is added modulo 256, and no flag is written. That no flag is written is the spec's own choice D38. -/
def Obligations.AddImmediateWrapsWithoutFlag : Prop :=
  ∀ (x : RegIdx) (kk : Byte) (s : State),
    decodeWord (wordXKK 0x7 x kk) = .ok (.addImm x kk) ∧
    ∃ t, exec (.addImm x kk) s = .next t ∧ (t.V[x]).toNat = ((s.V[x]).toNat + kk.toNat) % 256 ∧
      RegsSameExcept [x] s t ∧ ChangesOnly [.V] s t

/-- R70: the register is copied. R70 is marked general knowledge by the spec. -/
def Obligations.CopyRegister : Prop :=
  ∀ (x y : RegIdx) (s : State),
    decodeWord (wordXYN 0x8 x y 0x0) = .ok (.ldReg x y) ∧
    ∃ t, exec (.ldReg x y) s = .next t ∧ t.V[x] = s.V[y] ∧ RegsSameExcept [x] s t ∧ ChangesOnly [.V] s t

/-- R71, R72, R73: OR, AND and XOR bit by bit; VF is written only as the destination, or reset to 0 under LOGIC_RESETS_VF.
LOGIC_RESETS_VF is the spec's own choice D2, here for both values. -/
def Obligations.LogicOperations : Prop :=
  ∀ (x y : RegIdx) (s : State),
    decodeWord (wordXYN 0x8 x y 0x1) = .ok (.or x y) ∧ decodeWord (wordXYN 0x8 x y 0x2) = .ok (.and x y) ∧
    decodeWord (wordXYN 0x8 x y 0x3) = .ok (.xor x y) ∧
    ∀ (i : Instr) (f : Bool → Bool → Bool),
      (i = .or x y ∧ f = (fun p q => p || q)) ∨ (i = .and x y ∧ f = (fun p q => p && q)) ∨
        (i = .xor x y ∧ f = (fun p q => p != q)) →
      ∃ t, exec i s = .next t ∧ ChangesOnly [.V] s t ∧
        (s.cfg.logicResetsVf = true → t.V[vf] = 0 ∧ RegsSameExcept [x, vf] s t) ∧
        (s.cfg.logicResetsVf = false → RegsSameExcept [x] s t) ∧
        (x ≠ vf ∨ s.cfg.logicResetsVf = false →
          ∀ b, b < 8 → (t.V[x]).getLsbD b = f ((s.V[x]).getLsbD b) ((s.V[y]).getLsbD b))

/-- R74: the sum modulo 256, and VF the carry, which VF holds also when x = F. That VF holds the flag when x = F is the spec's
own choice D13. -/
def Obligations.AddSetsCarry : Prop :=
  ∀ (x y : RegIdx) (s : State),
    decodeWord (wordXYN 0x8 x y 0x4) = .ok (.addReg x y) ∧
    ∃ t, exec (.addReg x y) s = .next t ∧
      (x ≠ vf → (t.V[x]).toNat = ((s.V[x]).toNat + (s.V[y]).toNat) % 256) ∧
      t.V[vf] = (if (s.V[x]).toNat + (s.V[y]).toNat > 0xFF then 1 else 0) ∧
      RegsSameExcept [x, vf] s t ∧ ChangesOnly [.V] s t

/-- R75, R77: the difference modulo 256, and VF the inverted borrow, which VF holds also when x = F. Equal operands giving 1
is the spec's own choice D39, VF holding the flag when x = F D13; R77 is marked general knowledge. -/
def Obligations.SubtractSetsNoBorrow : Prop :=
  ∀ (x y : RegIdx) (s : State),
    decodeWord (wordXYN 0x8 x y 0x5) = .ok (.sub x y) ∧ decodeWord (wordXYN 0x8 x y 0x7) = .ok (.subn x y) ∧
    (∃ t, exec (.sub x y) s = .next t ∧
      (x ≠ vf → ((t.V[x]).toNat : Int) = (((s.V[x]).toNat : Int) - (s.V[y]).toNat) % 256) ∧
      t.V[vf] = (if (s.V[x]).toNat < (s.V[y]).toNat then 0 else 1) ∧
      RegsSameExcept [x, vf] s t ∧ ChangesOnly [.V] s t) ∧
    (∃ t, exec (.subn x y) s = .next t ∧
      (x ≠ vf → ((t.V[x]).toNat : Int) = (((s.V[y]).toNat : Int) - (s.V[x]).toNat) % 256) ∧
      t.V[vf] = (if (s.V[y]).toNat < (s.V[x]).toNat then 0 else 1) ∧
      RegsSameExcept [x, vf] s t ∧ ChangesOnly [.V] s t)

/-- R76, R78: the source that SHIFT_SOURCE names is shifted by one, and VF is the bit shifted out, which VF holds also when x
= F. That VF holds the flag when x = F is the spec's own choice D13; both values of SHIFT_SOURCE (D1) are stated. -/
def Obligations.ShiftsCaptureTheBitShiftedOut : Prop :=
  ∀ (x y src : RegIdx) (s : State),
    (s.cfg.shiftSource = .vx ∧ src = x) ∨ (s.cfg.shiftSource = .vy ∧ src = y) →
    decodeWord (wordXYN 0x8 x y 0x6) = .ok (.shr x y) ∧ decodeWord (wordXYN 0x8 x y 0xE) = .ok (.shl x y) ∧
    (∃ t, exec (.shr x y) s = .next t ∧
      (x ≠ vf → (t.V[x]).toNat = (s.V[src]).toNat / 2) ∧ (t.V[vf]).toNat = (s.V[src]).toNat % 2 ∧
      RegsSameExcept [x, vf] s t ∧ ChangesOnly [.V] s t) ∧
    (∃ t, exec (.shl x y) s = .next t ∧
      (x ≠ vf → (t.V[x]).toNat = (s.V[src]).toNat * 2 % 256) ∧ (t.V[vf]).toNat = (s.V[src]).toNat / 128 ∧
      RegsSameExcept [x, vf] s t ∧ ChangesOnly [.V] s t)

/-- R80 with R7: RND stores the draw masked by kk, whatever the draw is, and the next RND takes another draw. The draw is the
free value `Config.drawByte` at `drawIndex`, the model's own field (log entry 3). A fresh draw each time is the spec's own
choice D21. -/
def Obligations.RandomIsMasked : Prop :=
  ∀ (x : RegIdx) (kk : Byte) (s : State),
    decodeWord (wordXKK 0xC x kk) = .ok (.rnd x kk) ∧
    ∃ t, exec (.rnd x kk) s = .next t ∧ t.V[x] = Config.drawByte s.drawIndex &&& kk ∧
      (kk = 0 → t.V[x] = 0) ∧ t.drawIndex = s.drawIndex + 1 ∧
      RegsSameExcept [x] s t ∧ ChangesOnly [.V, .drawIndex] s t

/-! ### Display -/

/-- R82: CLS clears every pixel and changes nothing else. -/
def Obligations.ClsClearsEveryPixel : Prop :=
  decodeWord 0x00E0 = .ok .cls ∧
  ∀ s : State, ∃ t, exec .cls s = .next t ∧ (∀ (y : Fin 32) (x : Fin 64), t.FB[y][x] = false) ∧ ChangesOnly [.FB] s t

/-- R83: the loop of BlendSprite, read pixel by pixel: a pixel is flipped exactly when the sprite covers it, and the collision
is reported exactly when some covered pixel was set. Bit 7 being leftmost is the spec's own choice D35; both values of
DRAW_EDGE (D5) are stated. -/
def Obligations.BlendFlipsExactlyTheCoveredPixels : Prop :=
  ∀ (edge : DrawEdge) (fb : Framebuffer) (x0 y0 : Nat) (rows : List Byte),
    x0 < 64 → y0 < 32 → rows.length ≤ 15 →
    (∀ (y : Fin 32) (x : Fin 64),
      (blendSprite edge fb x0 y0 rows).1[y][x] ≠ fb[y][x] ↔
        SpriteCovers edge x0 y0 rows.length (fun r => rows.getD r 0) y x) ∧
    ((blendSprite edge fb x0 y0 rows).2 = true ↔
      ∃ (y : Fin 32) (x : Fin 64), SpriteCovers edge x0 y0 rows.length (fun r => rows.getD r 0) y x ∧ fb[y][x] = true)

/-- R84: DRW flips exactly the pixels its sprite covers, the n bytes at I drawn from (V[x] mod 64, V[y] mod 32), sets VF to 1
exactly when a covered pixel was set, and changes nothing else; when n > 0 and the n bytes reach above 0xFFF it raises
MemoryOutOfRange(max(I, 0x1000)) instead. n = 0 is the spec's own choice D6 (log entry 9), bit 7 being leftmost D35. -/
def Obligations.DrwDrawsTheSpriteAtI : Prop :=
  ∀ (x y : RegIdx) (n : Fin 16) (s : State),
    decodeWord (wordXYN 0xD x y (BitVec.ofFin n)) = .ok (.drw x y n) ∧
    (n.val = 0 ∨ s.I.toNat + n.val - 1 ≤ 0xFFF →
      ∃ t, exec (.drw x y n) s = .next t ∧
        (∀ (py : Fin 32) (px : Fin 64), t.FB[py][px] ≠ s.FB[py][px] ↔
          SpriteCovers s.cfg.drawEdge ((s.V[x]).toNat % 64) ((s.V[y]).toNat % 32) n.val
            (fun r => s.mem.readByte (s.I.toNat + r)) py px) ∧
        (t.V[vf] = 0 ∨ t.V[vf] = 1) ∧
        (t.V[vf] = 1 ↔ ∃ (py : Fin 32) (px : Fin 64), t.FB[py][px] ≠ s.FB[py][px] ∧ s.FB[py][px] = true) ∧
        RegsSameExcept [vf] s t ∧ ChangesOnly [.FB, .V] s t) ∧
    (n.val ≠ 0 → s.I.toNat + n.val - 1 > 0xFFF →
      exec (.drw x y n) s = .next { s with halted := some (.memoryOutOfRange (max s.I.toNat 0x1000)) })

/-- The XOR-erase idiom of R84 for every sprite: drawing the same sprite at the same place twice restores the framebuffer, and
the second draw reports a collision exactly when the first set some pixel. It covers n = 0, the spec's own choice D6. -/
def Obligations.DrawingTwiceErases : Prop :=
  ∀ (x y : RegIdx) (n : Fin 16) (s t u : State),
    n.val = 0 ∨ s.I.toNat + n.val - 1 ≤ 0xFFF →
    exec (.drw x y n) s = .next t → t.V[x] = s.V[x] → t.V[y] = s.V[y] → exec (.drw x y n) t = .next u →
    (∀ (py : Fin 32) (px : Fin 64), u.FB[py][px] = s.FB[py][px]) ∧
    (u.V[vf] = 1 ↔ ∃ (py : Fin 32) (px : Fin 64), s.FB[py][px] = false ∧ t.FB[py][px] = true)

/-! ### Index register and memory -/

/-- R87: I is set to nnn. -/
def Obligations.LoadIndex : Prop :=
  ∀ (nnn : Addr12) (s : State),
    decodeWord (0xA#4 ++ nnn) = .ok (.ldI nnn) ∧
    ∃ t, exec (.ldI nnn) s = .next t ∧ t.I.toNat = nnn.toNat ∧ ChangesOnly [.I] s t

/-- R88: the sum modulo 65536, and VF the overflow past ADDI_OVERFLOW_LIMIT, V[x] being read first when x = F. The sum modulo
65536 and the limits are the spec's own choice D7, here for both values of ADDI_OVERFLOW_LIMIT; the order when x = F is D13. -/
def Obligations.AddToIndexSetsOverflow : Prop :=
  ∀ (x : RegIdx) (s : State) (limit : Nat),
    (s.cfg.addiOverflowLimit = .addressSpace ∧ limit = 0x0FFF) ∨ (s.cfg.addiOverflowLimit = .indexWidth ∧ limit = 0xFFFF) →
    decodeWord (wordXKK 0xF x 0x1E) = .ok (.addI x) ∧
    ∃ t, exec (.addI x) s = .next t ∧ t.I.toNat = (s.I.toNat + (s.V[x]).toNat) % 65536 ∧
      t.V[vf] = (if s.I.toNat + (s.V[x]).toNat > limit then 1 else 0) ∧
      RegsSameExcept [vf] s t ∧ ChangesOnly [.I, .V] s t

/-- R89: I is the address of the glyph of the digit, masked or not as FONT_DIGIT_POLICY says. FONT_BASE and FONT_DIGIT_POLICY
are the spec's own choices D8 and D9, here for every value; the 5-byte glyph is marked general knowledge. -/
def Obligations.LoadFontAddress : Prop :=
  ∀ (x : RegIdx) (s : State),
    decodeWord (wordXKK 0xF x 0x29) = .ok (.ldF x) ∧
    ∃ t, exec (.ldF x) s = .next t ∧ ChangesOnly [.I] s t ∧
      (s.cfg.fontDigitPolicy = .mask → t.I.toNat = s.cfg.fontBase.val + 5 * ((s.V[x]).toNat % 16)) ∧
      (s.cfg.fontDigitPolicy = .unmasked → t.I.toNat = s.cfg.fontBase.val + 5 * (s.V[x]).toNat)

/-- R90: the hundreds, tens and units of V[x] go to mem[I], mem[I+1] and mem[I+2]; when I + 2 > 0xFFF it raises
MemoryOutOfRange(max(I, 0x1000)) and no byte is written. The digit order is marked general knowledge by the spec. -/
def Obligations.StoreBcdDigits : Prop :=
  ∀ (x : RegIdx) (s : State),
    decodeWord (wordXKK 0xF x 0x33) = .ok (.ldB x) ∧
    (s.I.toNat + 2 ≤ 0xFFF →
      ∃ t h d u, exec (.ldB x) s = .next t ∧ ChangesOnly [.mem] s t ∧
        h ≤ 2 ∧ d ≤ 9 ∧ u ≤ 9 ∧ 100 * h + 10 * d + u = (s.V[x]).toNat ∧
        (t.mem.readByte s.I.toNat).toNat = h ∧ (t.mem.readByte (s.I.toNat + 1)).toNat = d ∧
        (t.mem.readByte (s.I.toNat + 2)).toNat = u ∧
        ∀ a, a < s.I.toNat ∨ s.I.toNat + 2 < a → t.mem.readByte a = s.mem.readByte a) ∧
    (s.I.toNat + 2 > 0xFFF →
      exec (.ldB x) s = .next { s with halted := some (.memoryOutOfRange (max s.I.toNat 0x1000)) })

/-- R91: V0 to Vx go to memory from I, and I moves only under LOADSTORE_INCREMENTS_I; when I + x > 0xFFF it raises
MemoryOutOfRange(max(I, 0x1000)) and no byte is written. LOADSTORE_INCREMENTS_I is the spec's own choice D3, here for both
values. -/
def Obligations.StoreRegisterBlock : Prop :=
  ∀ (x : RegIdx) (s : State),
    decodeWord (wordXKK 0xF x 0x55) = .ok (.storeRegs x) ∧
    (s.I.toNat + x.val ≤ 0xFFF →
      ∃ t, exec (.storeRegs x) s = .next t ∧ ChangesOnly [.mem, .I] s t ∧
        (∀ k : RegIdx, k ≤ x → t.mem.readByte (s.I.toNat + k.val) = s.V[k]) ∧
        (∀ a, a < s.I.toNat ∨ s.I.toNat + x.val < a → t.mem.readByte a = s.mem.readByte a) ∧
        t.I.toNat = (if s.cfg.loadStoreIncrementsI = true then (s.I.toNat + x.val + 1) % 65536 else s.I.toNat)) ∧
    (s.I.toNat + x.val > 0xFFF →
      exec (.storeRegs x) s = .next { s with halted := some (.memoryOutOfRange (max s.I.toNat 0x1000)) })

/-- R92: V0 to Vx are loaded from memory at I, and I moves only under LOADSTORE_INCREMENTS_I; when I + x > 0xFFF it raises
MemoryOutOfRange(max(I, 0x1000)) and no register is written. LOADSTORE_INCREMENTS_I is the spec's own choice D3, here for both
values. -/
def Obligations.LoadRegisterBlock : Prop :=
  ∀ (x : RegIdx) (s : State),
    decodeWord (wordXKK 0xF x 0x65) = .ok (.loadRegs x) ∧
    (s.I.toNat + x.val ≤ 0xFFF →
      ∃ t, exec (.loadRegs x) s = .next t ∧ ChangesOnly [.V, .I] s t ∧
        (∀ k : RegIdx, t.V[k] = if k ≤ x then s.mem.readByte (s.I.toNat + k.val) else s.V[k]) ∧
        t.I.toNat = (if s.cfg.loadStoreIncrementsI = true then (s.I.toNat + x.val + 1) % 65536 else s.I.toNat)) ∧
    (s.I.toNat + x.val > 0xFFF →
      exec (.loadRegs x) s = .next { s with halted := some (.memoryOutOfRange (max s.I.toNat 0x1000)) })

/-- A block stored and loaded back from the same I gives every register of the block its value again (R91, R92, R41). -/
def Obligations.LoadUndoesStore : Prop :=
  ∀ (x : RegIdx) (s t : State) (v : Vector Byte 16), s.I.toNat + x.val ≤ 0xFFF → exec (.storeRegs x) s = .next t →
    ∃ u, exec (.loadRegs x) { t with I := s.I, V := v } = .next u ∧
      ∀ k : RegIdx, u.V[k] = if k ≤ x then s.V[k] else v[k]

/-- R43: bytes a block store has written are what the next fetch at their address reads. Fetch coherence is the spec's own
choice D30. -/
def Obligations.StoredBytesAreFetched : Prop :=
  ∀ (x k j : RegIdx) (s t : State), s.I.toNat + x.val ≤ 0xFFF → j.val = k.val + 1 → j ≤ x →
    exec (.storeRegs x) s = .next t →
    fetchWord { t with PC := BitVec.ofNat 16 (s.I.toNat + k.val) } = .ok (s.V[k] ++ s.V[j])

/-- R35, R36: the access primitives. In range, a write of n ≥ 1 bytes is read back, high byte first at addr, and leaves every
other address alone; reaching above 0xFFF, both raise MemoryOutOfRange(max(addr, 0x1000)). The check before the first byte is
the spec's own choice D15, the recorded address D34. -/
def Obligations.MemoryReadsAndWrites : Prop :=
  ∀ (m : Memory) (addr : Nat) (bytes : List Byte), bytes ≠ [] →
    (addr + bytes.length - 1 ≤ 0xFFF →
      ∃ m' old, memWrite m addr bytes = .ok m' ∧ memRead m' addr bytes.length = .ok bytes ∧
        memRead m addr bytes.length = .ok old ∧ old.length = bytes.length ∧
        (∀ k, k < bytes.length → old.getD k 0 = m.readByte (addr + k) ∧ bytes.getD k 0 = m'.readByte (addr + k)) ∧
        ∀ a, a < addr ∨ addr + bytes.length ≤ a → m'.readByte a = m.readByte a) ∧
    (addr + bytes.length - 1 > 0xFFF →
      memWrite m addr bytes = .error (.memoryOutOfRange (max addr 0x1000)) ∧
      memRead m addr bytes.length = .error (.memoryOutOfRange (max addr 0x1000)))

/-! ### Keys and timers -/

/-- R93, R94 with R96: the key skips; an index above 0xF raises InvalidKeyIndex(V[x]). The error on an index above 0xF is the
spec's own choice D19. -/
def Obligations.SkipsOnAKey : Prop :=
  ∀ (x : RegIdx) (s : State),
    decodeWord (wordXKK 0xE x 0x9E) = .ok (.skp x) ∧ decodeWord (wordXKK 0xE x 0xA1) = .ok (.sknp x) ∧
    (∀ k : KeyIdx, (s.V[x]).toNat = k.val →
      (∃ t, exec (.skp x) s = .next t ∧ ChangesOnly [.PC] s t ∧ t.PC = if s.keys[k] = true then s.PC + 2 else s.PC) ∧
      (∃ t, exec (.sknp x) s = .next t ∧ ChangesOnly [.PC] s t ∧ t.PC = if s.keys[k] = true then s.PC else s.PC + 2)) ∧
    ((s.V[x]).toNat > 0xF →
      exec (.skp x) s = .next { s with halted := some (.invalidKeyIndex (s.V[x]).toNat) } ∧
      exec (.sknp x) s = .next { s with halted := some (.invalidKeyIndex (s.V[x]).toNat) })

/-- R95: DT is read into V[x]. -/
def Obligations.ReadDelayTimer : Prop :=
  ∀ (x : RegIdx) (s : State),
    decodeWord (wordXKK 0xF x 0x07) = .ok (.ldVxDt x) ∧
    ∃ t, exec (.ldVxDt x) s = .next t ∧ t.V[x] = s.DT ∧ RegsSameExcept [x] s t ∧ ChangesOnly [.V] s t

/-- R98, R99: V[x] is written to DT, or to ST. -/
def Obligations.WriteTimers : Prop :=
  ∀ (x : RegIdx) (s : State),
    decodeWord (wordXKK 0xF x 0x15) = .ok (.ldDtVx x) ∧ decodeWord (wordXKK 0xF x 0x18) = .ok (.ldStVx x) ∧
    (∃ t, exec (.ldDtVx x) s = .next t ∧ t.DT = s.V[x] ∧ ChangesOnly [.DT] s t) ∧
    (∃ t, exec (.ldStVx x) s = .next t ∧ t.ST = s.V[x] ∧ ChangesOnly [.ST] s t ∧
      issue .isSoundActive t = .next (t, .active (decide (s.V[x] ≠ 0))))

/-- R97: with a key pressed, the lowest pressed index is stored; with none, PC goes back to a and nothing else changes. The
level test and the lowest key are the spec's own choice D20 (log entry 13). -/
def Obligations.KeyWaitTakesTheLowestKey : Prop :=
  ∀ (x : RegIdx) (s : State) (a : Word), s.PC = a + 2 →
    decodeWord (wordXKK 0xF x 0x0A) = .ok (.ldVxK x) ∧
    (∀ k : KeyIdx, s.keys[k] = true → (∀ j : KeyIdx, j < k → s.keys[j] = false) →
      ∃ t, exec (.ldVxK x) s = .next t ∧ (t.V[x]).toNat = k.val ∧ RegsSameExcept [x] s t ∧ ChangesOnly [.V] s t) ∧
    ((∀ k : KeyIdx, s.keys[k] = false) →
      ∃ t, exec (.ldVxK x) s = .next t ∧ t.PC = a ∧ ChangesOnly [.PC] s t)

/-! ### The host's commands -/

/-- R120, R121 with R30: a `load` of at most 3584 bytes leaves the reset state with the program and the font image in memory,
from any state, halted or not; a longer one fails and leaves the state, `halted` included, as it was. Loading nothing into the
state after reset gives that state again: construction is described the same way (R30). The font image and a failed load
changing nothing are the spec's own choices D10 and D27; cfg being kept is the model's (log entry 18). -/
def Obligations.LoadResetsOrChangesNothing : Prop :=
  (∀ (s : State) (bytes : List Byte), bytes.length ≤ 3584 →
    ∃ t, issue (.load bytes) s = .next (t, .ok) ∧
      (∀ k, k < bytes.length → t.mem.readByte (0x200 + k) = bytes.getD k 0) ∧
      (∀ k : Fin 80, t.mem.readByte (s.cfg.fontBase.val + k.val) = s.cfg.fontImage[k]) ∧
      (∀ a, (a < s.cfg.fontBase.val ∨ s.cfg.fontBase.val + 80 ≤ a) → (a < 0x200 ∨ 0x200 + bytes.length ≤ a) →
        t.mem.readByte a = 0) ∧
      (∀ k : RegIdx, t.V[k] = 0) ∧ t.I = 0 ∧ t.PC = 0x200 ∧ (∀ k : Fin 16, t.stack[k] = 0) ∧ t.SP = 0 ∧
      t.DT = 0 ∧ t.ST = 0 ∧ (∀ (y : Fin 32) (x : Fin 64), t.FB[y][x] = false) ∧
      (∀ k : KeyIdx, t.keys[k] = false) ∧ t.halted = none ∧ t.cfg = s.cfg) ∧
  (∀ (s : State) (bytes : List Byte), bytes.length > 3584 →
    issue (.load bytes) s = .next (s, .error (.programTooLarge bytes.length))) ∧
  issue (.load []) State.reset = .next (State.reset, .ok)

/-- R111: a tick decrements each timer that is above 0, and touches nothing else. The 60 Hz duty of the host that R111 adds is
left out (log entry 8). -/
def Obligations.TickDecrementsBothTimers : Prop :=
  ∀ s : State, ∃ t, issue .tickTimers s = .next (t, .ok) ∧
    t.DT.toNat = (if s.DT.toNat > 0 then s.DT.toNat - 1 else s.DT.toNat) ∧
    t.ST.toNat = (if s.ST.toNat > 0 then s.ST.toNat - 1 else s.ST.toNat) ∧ ChangesOnly [.DT, .ST] s t

/-- R24, R25: n ticks take n from each timer, with floor 0 and no wrap. -/
def Obligations.TicksCountDownToZero : Prop :=
  ∀ (n : Nat) (s : State), ∃ t rs, runSchedule (List.replicate n .tickTimers) s = .next (t, rs) ∧
    t.DT.toNat = s.DT.toNat - n ∧ t.ST.toNat = s.ST.toNat - n ∧ ChangesOnly [.DT, .ST] s t

/-- R112: `set_key` writes the one key, and fails with no change on an index outside 0 to 15. That a bad index fails is the
spec's own choice D28. -/
def Obligations.SetKeyWritesTheLatch : Prop :=
  ∀ (s : State) (index : Int) (pressed : Bool),
    (∀ k : KeyIdx, index = k.val →
      ∃ t, issue (.setKey index pressed) s = .next (t, .ok) ∧ t.keys[k] = pressed ∧
        (∀ j : KeyIdx, j ≠ k → t.keys[j] = s.keys[j]) ∧ ChangesOnly [.keys] s t) ∧
    (index < 0 ∨ index > 15 → issue (.setKey index pressed) s = .next (s, .error (.invalidKeyIndex index)))

/-- R113, R114: the two pure reads of the host interface. -/
def Obligations.HostReadsArePure : Prop :=
  ∀ s : State,
    (∃ g, issue .framebufferSnapshot s = .next (s, .grid g) ∧ ∀ (y : Fin 32) (x : Fin 64), g[y][x] = s.FB[y][x]) ∧
    ∃ b, issue .isSoundActive s = .next (s, .active b) ∧ (b = true ↔ s.ST.toNat ≠ 0)

/-- R110: the timer unit is independent of instruction progress. A step of any kind but a timer read or write commutes with a
tick: running, waiting or halted. Ticks acting while halted is the spec's own choice D25. -/
def Obligations.TicksCommuteWithSteps : Prop :=
  ∀ s t, (∀ x, ¬ s.AtInstr (.ldVxDt x) ∧ ¬ s.AtInstr (.ldDtVx x) ∧ ¬ s.AtInstr (.ldStVx x)) →
    step s = .next t → step (tickTimers s) = .next (tickTimers t)

/-- R27, R104: a program sees a key only by reading the latch. A step of any kind but the three key instructions commutes with
a `set_key`. set_key as an atomic command is the spec's own choice D26 (log entry 14). -/
def Obligations.KeysAreSeenOnlyByKeyInstructions : Prop :=
  ∀ s t k p, (∀ x, ¬ s.AtInstr (.skp x) ∧ ¬ s.AtInstr (.sknp x) ∧ ¬ s.AtInstr (.ldVxK x)) →
    step s = .next t → step (s.setKeyBit k p) = .next (t.setKeyBit k p)

/-- R97, R119, R129: while waiting every step returns ok and changes nothing, and a key pressed by `set_key` ends the wait at
the next step. Every other command keeps the wait: ticks, a key released, a `set_key` or a `load` that is refused, and the two
reads of the host. The one exception is a `load` that succeeds, which is a reset (R120). The level test is the spec's own
choice D20 (log entry 13). -/
def Obligations.WaitingEndsOnlyWithAKeyOrALoad : Prop :=
  ∀ s : State, s.Waiting →
    issue .step s = .next (s, .ok) ∧ (∀ n, Host.Core.run core n s = .next s) ∧
    (∀ c : Command, (∀ bytes, bytes.length ≤ 3584 → c ≠ .load bytes) → (∀ k : KeyIdx, c ≠ .setKey k.val true) →
      ∃ t r, issue c s = .next (t, r) ∧ t.Waiting) ∧
    ∀ (k : KeyIdx) (x : RegIdx), s.AtInstr (.ldVxK x) →
      ∃ t u, issue (.setKey k.val true) s = .next (t, .ok) ∧ issue .step t = .next (u, .ok) ∧
        (u.V[x]).toNat = k.val ∧ u.PC = s.PC + 2

/-- R130: at a spin every step leaves the whole state unchanged. The spin as an end of a run is the spec's own choice D37. -/
def Obligations.SpinKeepsTheState : Prop :=
  ∀ s : State, s.Spinning → ∀ n, Host.Core.run core n s = .next s

/-- Placing a word with `withFetchWord` makes the next step run it: the word that is fetched is the word placed, from any
state, and a state that is not halted and whose PC is in range keeps everything but the two bytes at PC (R37, R49; log entry
7). Placing a word is the model's own operation (log entry 7). -/
def Obligations.PlacedWordIsFetched : Prop :=
  ∀ (s : State) (w : Nat), w < 65536 →
    fetchWord (s.withFetchWord 16 w) = .ok (BitVec.ofNat 16 w) ∧ (s.withFetchWord 16 w).halted = none ∧
    (s.halted = none → s.PC.toNat ≤ 0xFFE → ChangesOnly [.mem] s (s.withFetchWord 16 w) ∧
      ∀ a, a ≠ s.PC.toNat → a ≠ s.PC.toNat + 1 → (s.withFetchWord 16 w).mem.readByte a = s.mem.readByte a)
end

