-- ==== Sys2Proof/Laws/Decode.lean ====
section
/-! SUPPORT. The bits of an encoded word, and the fields of a word of each format (spec/30_encoding.md R46, R47). -/

namespace Sys2Proof

theorem wordNNN_getLsbD (op : BitVec 4) (nnn : Addr12) (i : Nat) :
    (wordNNN op nnn).getLsbD i = if i < 12 then nnn.getLsbD i else op.getLsbD (i - 12) := by
  exact BitVec.getLsbD_append (x := op) (y := nnn) (i := i)

theorem wordXKK_getLsbD (op : BitVec 4) (x : RegIdx) (kk : Byte) (i : Nat) :
    (wordXKK op x kk).getLsbD i =
      if i < 8 then kk.getLsbD i
      else if i - 8 < 4 then (BitVec.ofFin (w := 4) x).getLsbD (i - 8) else op.getLsbD (i - 8 - 4) := by
  refine (BitVec.getLsbD_append (x := op ++ BitVec.ofFin (w := 4) x) (y := kk) (i := i)).trans ?_
  rw [BitVec.getLsbD_append]

theorem wordXYN_getLsbD (op : BitVec 4) (x y : RegIdx) (n : BitVec 4) (i : Nat) :
    (wordXYN op x y n).getLsbD i =
      if i < 4 then n.getLsbD i
      else if i - 4 < 4 then (BitVec.ofFin (w := 4) y).getLsbD (i - 4)
      else if i - 4 - 4 < 4 then (BitVec.ofFin (w := 4) x).getLsbD (i - 4 - 4) else op.getLsbD (i - 4 - 4 - 4) := by
  refine (BitVec.getLsbD_append (x := op ++ BitVec.ofFin (w := 4) x ++ BitVec.ofFin (w := 4) y) (y := n) (i := i)).trans ?_
  rw [BitVec.getLsbD_append, BitVec.getLsbD_append]

/-! ### Fields of a word of format `NNN` -/

@[simp] theorem fieldOp_wordNNN (op : BitVec 4) (nnn : Addr12) : fieldOp (wordNNN op nnn) = op := by
  ext i hi
  simp [fieldOp, BitVec.getElem_extractLsb', wordNNN_getLsbD, BitVec.getLsbD_eq_getElem hi]

@[simp] theorem fieldNNN_wordNNN (op : BitVec 4) (nnn : Addr12) : fieldNNN (wordNNN op nnn) = nnn := by
  ext i hi
  simp [fieldNNN, BitVec.getElem_extractLsb', wordNNN_getLsbD, hi]

/-! ### Fields of a word of format `XKK` -/

@[simp] theorem fieldOp_wordXKK (op : BitVec 4) (x : RegIdx) (kk : Byte) : fieldOp (wordXKK op x kk) = op := by
  ext i hi
  simp [fieldOp, BitVec.getElem_extractLsb', wordXKK_getLsbD, show 12 + i - 8 - 4 = i by omega,
    show ¬(12 + i - 8 < 4) by omega, show ¬(12 + i < 8) by omega, BitVec.getLsbD_eq_getElem hi]

@[simp] theorem fieldKK_wordXKK (op : BitVec 4) (x : RegIdx) (kk : Byte) : fieldKK (wordXKK op x kk) = kk := by
  ext i hi
  simp [fieldKK, BitVec.getElem_extractLsb', wordXKK_getLsbD, hi]

@[simp] theorem fieldX_wordXKK (op : BitVec 4) (x : RegIdx) (kk : Byte) : fieldX (wordXKK op x kk) = x := by
  have h : (wordXKK op x kk).extractLsb' 8 4 = BitVec.ofFin (w := 4) x := by
    ext i hi
    simp [BitVec.getElem_extractLsb', wordXKK_getLsbD, hi]
  exact congrArg BitVec.toFin h

/-! ### Fields of a word of formats `XY` and `XYN` -/

@[simp] theorem fieldOp_wordXYN (op : BitVec 4) (x y : RegIdx) (n : BitVec 4) : fieldOp (wordXYN op x y n) = op := by
  ext i hi
  simp [fieldOp, BitVec.getElem_extractLsb', wordXYN_getLsbD, show 12 + i - 4 - 4 - 4 = i by omega,
    show ¬(12 + i - 4 - 4 < 4) by omega, show ¬(12 + i - 4 < 4) by omega, show ¬(12 + i < 4) by omega,
    BitVec.getLsbD_eq_getElem hi]

@[simp] theorem fieldN_wordXYN (op : BitVec 4) (x y : RegIdx) (n : BitVec 4) : fieldN (wordXYN op x y n) = n := by
  ext i hi
  simp [fieldN, BitVec.getElem_extractLsb', wordXYN_getLsbD, hi]

@[simp] theorem fieldX_wordXYN (op : BitVec 4) (x y : RegIdx) (n : BitVec 4) : fieldX (wordXYN op x y n) = x := by
  have h : (wordXYN op x y n).extractLsb' 8 4 = BitVec.ofFin (w := 4) x := by
    ext i hi
    simp [BitVec.getElem_extractLsb', wordXYN_getLsbD, show 8 + i - 4 - 4 = i by omega,
      show ¬(8 + i - 4 < 4) by omega, show ¬(8 + i < 4) by omega, hi]
  exact congrArg BitVec.toFin h

@[simp] theorem fieldY_wordXYN (op : BitVec 4) (x y : RegIdx) (n : BitVec 4) : fieldY (wordXYN op x y n) = y := by
  have h : (wordXYN op x y n).extractLsb' 4 4 = BitVec.ofFin (w := 4) y := by
    ext i hi
    simp [BitVec.getElem_extractLsb', wordXYN_getLsbD, hi]
  exact congrArg BitVec.toFin h

/-! ### A word from its fields -/

/-- Every word is the word of its `op` and `nnn` fields. -/
theorem wordNNN_fields (w : Word) : wordNNN (fieldOp w) (fieldNNN w) = w := by
  refine BitVec.eq_of_getLsbD_eq fun j hj => ?_
  rw [wordNNN_getLsbD]
  simp only [fieldNNN, fieldOp, BitVec.getLsbD_extractLsb']
  interval_cases j <;> simp

/-- Every word is the word of its `op`, `x` and `kk` fields. -/
theorem wordXKK_fields (w : Word) : wordXKK (fieldOp w) (fieldX w) (fieldKK w) = w := by
  refine BitVec.eq_of_getLsbD_eq fun j hj => ?_
  have hx : ∀ k, (BitVec.ofFin (w := 4) (fieldX w)).getLsbD k = (w.extractLsb' 8 4).getLsbD k := fun _ => rfl
  rw [wordXKK_getLsbD, hx]
  simp only [fieldKK, fieldOp, BitVec.getLsbD_extractLsb']
  interval_cases j <;> simp

/-- Every word is the word of its `op`, `x`, `y` and `n` fields. -/
theorem wordXYN_fields (w : Word) : wordXYN (fieldOp w) (fieldX w) (fieldY w) (fieldN w) = w := by
  refine BitVec.eq_of_getLsbD_eq fun j hj => ?_
  have hx : ∀ k, (BitVec.ofFin (w := 4) (fieldX w)).getLsbD k = (w.extractLsb' 8 4).getLsbD k := fun _ => rfl
  have hy : ∀ k, (BitVec.ofFin (w := 4) (fieldY w)).getLsbD k = (w.extractLsb' 4 4).getLsbD k := fun _ => rfl
  rw [wordXYN_getLsbD, hx, hy]
  simp only [fieldN, fieldOp, BitVec.getLsbD_extractLsb']
  interval_cases j <;> simp

/-- `w >>> 12` is the `op` field. -/
theorem shiftRight_eq_fieldOp (w : Word) : w >>> 12 = (fieldOp w).setWidth 16 := by
  refine BitVec.eq_of_getLsbD_eq fun j hj => ?_
  simp only [fieldOp, BitVec.getLsbD_setWidth, BitVec.getLsbD_extractLsb', BitVec.getLsbD_ushiftRight]
  interval_cases j <;> simp

/-- `w &&& 0xF` is the `n` field. -/
theorem and_eq_fieldN (w : Word) : w &&& 0xF = (fieldN w).setWidth 16 := by
  refine BitVec.eq_of_getLsbD_eq fun j hj => ?_
  simp only [fieldN, BitVec.getLsbD_setWidth, BitVec.getLsbD_extractLsb', BitVec.getLsbD_and]
  interval_cases j <;> simp

/-- `w &&& 0xFF` is the `kk` field. -/
theorem and_eq_fieldKK (w : Word) : w &&& 0xFF = (fieldKK w).setWidth 16 := by
  refine BitVec.eq_of_getLsbD_eq fun j hj => ?_
  simp only [fieldKK, BitVec.getLsbD_setWidth, BitVec.getLsbD_extractLsb', BitVec.getLsbD_and]
  interval_cases j <;> simp

/-- The two bytes of an encoded instruction make its word again (R37, R45). -/
theorem wordOfBytes_encodeBytes (i : Instr) :
    wordOfBytes ((encode i).extractLsb' 8 8) ((encode i).extractLsb' 0 8) = encode i := by
  unfold wordOfBytes
  refine BitVec.eq_of_getLsbD_eq fun j hj => ?_
  refine (BitVec.getLsbD_append (x := (encode i).extractLsb' 8 8) (y := (encode i).extractLsb' 0 8) (i := j)).trans ?_
  by_cases h8 : j < 8
  · simp [h8]
  · simp [h8, show j - 8 < 8 by omega, show 8 + (j - 8) = j by omega]

end Sys2Proof
end

