-- ==== Sys2Proof/Laws/Display.lean ====
section
/-! SUPPORT. What the framebuffer operations do to one pixel. -/

namespace Sys2Proof.Machine

@[simp] theorem Framebuffer.pixel_clear (y : Fin 32) (x : Fin 64) : Framebuffer.clear.pixel y x = false := by
  simp [Framebuffer.pixel, Framebuffer.clear]

/-- A flip inverts its own pixel and no other. -/
theorem Framebuffer.pixel_flip (fb : Framebuffer) (y y' : Fin 32) (x x' : Fin 64) :
    (fb.flip y x).pixel y' x' = if y' = y ∧ x' = x then !fb.pixel y' x' else fb.pixel y' x' := by
  unfold Framebuffer.flip Framebuffer.pixel
  by_cases hy : y' = y
  · subst hy
    by_cases hx : x' = x
    · subst hx; simp
    · have : (x : Nat) ≠ x' := fun h => hx (Fin.ext h.symm)
      simp [hx, this]
  · have : (y : Nat) ≠ y' := fun h => hy (Fin.ext h.symm)
    simp [hy, this]

/-- Everything the loop body of R83 can do: nothing (a clipped pixel), or a flip with the collision noted. -/
theorem blendPixel_cases (edge : DrawEdge) (px py : Nat) (acc : Framebuffer × Bool) :
    ((edge = .clip ∧ (px > 63 ∨ py > 31)) ∧ blendPixel edge px py acc = acc) ∨
    (¬(edge = .clip ∧ (px > 63 ∨ py > 31)) ∧
      blendPixel edge px py acc =
        (acc.1.flip (Fin.ofNat 32 py) (Fin.ofNat 64 px), acc.2 || acc.1.pixel (Fin.ofNat 32 py) (Fin.ofNat 64 px))) := by
  unfold blendPixel
  split
  · exact .inl ⟨‹_›, rfl⟩
  · exact .inr ⟨‹_›, rfl⟩

@[simp] theorem blendSprite_nil (edge : DrawEdge) (fb : Framebuffer) (x0 y0 : Nat) :
    blendSprite edge fb x0 y0 [] = (fb, false) := rfl

end Sys2Proof.Machine
end

