-- ==== Sys2Proof/Laws/Memory.lean ====
section
/-! SUPPORT. What the memory operations do: a read after a write, and the canonical form that every write keeps. -/

namespace Sys2Proof.Machine

/-! ### Reads after writes, in any memory -/

@[simp] theorem Memory.readByte_nil (a : Nat) : Memory.readByte [] a = 0 := rfl

theorem Memory.readByte_erase (m : Memory) (a k : Nat) :
    (m.erase a).readByte k = if k = a then 0 else m.readByte k := by
  induction m with
  | nil => simp [Memory.erase]
  | cons c m ih =>
    unfold Memory.erase at ih ⊢
    by_cases hc : c.1 = a
    · by_cases hk : k = a <;> simp_all [Memory.readByte, eq_comm]
    · by_cases hk : k = a
      · subst hk; simp_all [Memory.readByte]
      · simp_all [Memory.readByte]

theorem Memory.readByte_insert (m : Memory) (a k : Nat) (b : Byte) (h : ∀ c ∈ m, c.1 ≠ a) :
    (m.insert a b).readByte k = if k = a then b else m.readByte k := by
  induction m with
  | nil => simp [Memory.insert, Memory.readByte, eq_comm, Memory.unlisted]
  | cons c m ih =>
    have hm : ∀ d ∈ m, d.1 ≠ a := fun d hd => h d (List.mem_cons_of_mem _ hd)
    have hc : c.1 ≠ a := h c List.mem_cons_self
    unfold Memory.insert
    split
    · by_cases hk : k = a <;> simp_all [Memory.readByte, eq_comm]
    · by_cases hk : k = a
      · subst hk; simp_all [Memory.readByte]
      · simp_all [Memory.readByte]

theorem Memory.erase_ne (m : Memory) (a : Nat) : ∀ c ∈ m.erase a, c.1 ≠ a := by
  intro c hc
  simpa using (List.mem_filter.mp hc).2

/-- A read after a write: the byte written at its address, and what was there before at every other. -/
theorem Memory.readByte_writeByte (m : Memory) (a k : Nat) (b : Byte) :
    (m.writeByte a b).readByte k = if k = a then b else m.readByte k := by
  unfold Memory.writeByte
  split
  · rename_i hb
    rw [Memory.readByte_erase, hb]; rfl
  · rw [Memory.readByte_insert _ _ _ _ (Memory.erase_ne m a), Memory.readByte_erase]
    split <;> rfl

/-- A read after a block write: byte `k - a` of the block inside it, and what was there before outside it. -/
theorem Memory.readByte_writeBytes (m : Memory) (a k : Nat) (bs : List Byte) :
    (m.writeBytes a bs).readByte k = if h : a ≤ k ∧ k < a + bs.length then bs[k - a] else m.readByte k := by
  induction bs generalizing m a with
  | nil => rw [dif_neg (by simp only [List.length_nil]; omega)]; rfl
  | cons b bs ih =>
    rw [Memory.writeBytes, ih, Memory.readByte_writeByte]
    by_cases hk : k = a
    · subst hk
      rw [dif_neg (by omega), if_pos rfl, dif_pos (by simp only [List.length_cons]; omega)]
      simp
    · by_cases hin : a + 1 ≤ k ∧ k < a + 1 + bs.length
      · rw [dif_pos hin, dif_pos (by simp only [List.length_cons]; omega)]
        simp only [show k - a = (k - (a + 1)) + 1 by omega, List.getElem_cons_succ]
      · rw [dif_neg hin, if_neg hk, dif_neg (by simp only [List.length_cons]; omega)]

@[simp] theorem Memory.readBytes_length (m : Memory) (a n : Nat) : (m.readBytes a n).length = n := by
  simp [Memory.readBytes]

theorem Memory.readBytes_getElem (m : Memory) (a n k : Nat) (h : k < (m.readBytes a n).length) :
    (m.readBytes a n)[k] = m.readByte (a + k) := by
  simp [Memory.readBytes]

/-! ### The canonical form -/

theorem Memory.erase_wf {m : Memory} (h : m.wf) (a : Nat) : (m.erase a).wf :=
  ⟨h.1.filter _, fun c hc => h.2 c (List.mem_filter.mp hc).1⟩

theorem Memory.mem_insert {m : Memory} {a : Nat} {b : Byte} {c : Host.Cell} :
    c ∈ m.insert a b ↔ c = (a, b) ∨ c ∈ m := by
  induction m with
  | nil => simp [Memory.insert]
  | cons d m ih =>
    unfold Memory.insert
    split
    · simp
    · simp [ih]; tauto

theorem Memory.insert_wf {m : Memory} (h : m.wf) {a : Nat} {b : Byte} (ha : a < memSize) (hb : b ≠ Memory.unlisted)
    (hne : ∀ c ∈ m, c.1 ≠ a) : (m.insert a b).wf := by
  refine ⟨?_, ?_⟩
  · have hp := h.1
    clear h
    induction m with
    | nil => simp [Memory.insert]
    | cons d m ih =>
      have hd : d.1 ≠ a := hne d List.mem_cons_self
      rw [List.pairwise_cons] at hp
      unfold Memory.insert
      split
      · rename_i hlt
        refine List.pairwise_cons.mpr ⟨?_, List.pairwise_cons.mpr hp⟩
        intro c hc
        rcases List.mem_cons.mp hc with rfl | hc
        · exact hlt
        · exact lt_trans hlt (hp.1 c hc)
      · rename_i hnl
        refine List.pairwise_cons.mpr ⟨?_, ih (fun c hc => hne c (List.mem_cons_of_mem _ hc)) hp.2⟩
        intro c hc
        rcases Memory.mem_insert.mp hc with rfl | hc
        · show d.1 < a
          omega
        · exact hp.1 c hc
  · intro c hc
    rcases Memory.mem_insert.mp hc with rfl | hc
    · exact ⟨ha, hb⟩
    · exact h.2 c hc

/-- Every write inside the address space keeps the canonical form. -/
theorem Memory.writeByte_wf {m : Memory} (h : m.wf) {a : Nat} (ha : a < memSize) (b : Byte) : (m.writeByte a b).wf := by
  unfold Memory.writeByte
  split
  · exact Memory.erase_wf h a
  · exact Memory.insert_wf (Memory.erase_wf h a) ha ‹_› (Memory.erase_ne m a)

/-- Every block write inside the address space keeps the canonical form. -/
theorem Memory.writeBytes_wf {m : Memory} (h : m.wf) {a : Nat} (bs : List Byte) (ha : a + bs.length ≤ memSize) :
    (m.writeBytes a bs).wf := by
  induction bs generalizing m a with
  | nil => exact h
  | cons b bs ih =>
    simp only [List.length_cons] at ha
    exact ih (Memory.writeByte_wf h (by omega) b) (by omega)

theorem Memory.nil_wf : Memory.wf [] := ⟨List.Pairwise.nil, by simp⟩

/-! ### The access primitives (R35, R36) -/

/-- Everything `memRead` can do, for n ≥ 1. -/
theorem memRead_cases (m : Memory) (addr n : Nat) :
    (0xFFF < addr + n - 1 ∧ memRead m addr n = .error (.memoryOutOfRange (max addr 0x1000))) ∨
    (addr + n - 1 ≤ 0xFFF ∧ memRead m addr n = .ok (m.readBytes addr n)) := by
  unfold memRead outOfRange
  split
  · exact .inl ⟨‹_›, rfl⟩
  · exact .inr ⟨by omega, rfl⟩

/-- Everything `memWrite` can do, for a block of at least one byte. -/
theorem memWrite_cases (m : Memory) (addr : Nat) (bs : List Byte) :
    (0xFFF < addr + bs.length - 1 ∧ memWrite m addr bs = .error (.memoryOutOfRange (max addr 0x1000))) ∨
    (addr + bs.length - 1 ≤ 0xFFF ∧ memWrite m addr bs = .ok (m.writeBytes addr bs)) := by
  unfold memWrite outOfRange
  split
  · exact .inl ⟨‹_›, rfl⟩
  · exact .inr ⟨by omega, rfl⟩

/-- A write that `memWrite` lets through keeps the canonical form. -/
theorem memWrite_wf {m m' : Memory} {addr : Nat} {bs : List Byte} (h : m.wf) (hw : memWrite m addr bs = .ok m') : m'.wf := by
  rcases memWrite_cases m addr bs with ⟨-, he⟩ | ⟨hr, he⟩
  · rw [he] at hw; cases hw
  · rw [he] at hw
    cases hw
    rcases bs with _ | ⟨b, bs⟩
    · exact h
    · exact Memory.writeBytes_wf h _ (by simp only [List.length_cons, memSize] at *; omega)

end Sys2Proof.Machine
end

