-- ==== Sys2Proof/Laws/State.lean ====
section
/-! SUPPORT. One lemma per field per update of State, all true by unfolding the update once, so that no proof unfolds a record
update again. -/

namespace Sys2Proof.Machine

/-! ### `setV` -/

@[simp] theorem State.setV_cfg (s : State) (x : RegIdx) (b : Byte) : (s.setV x b).cfg = s.cfg := rfl
@[simp] theorem State.setV_mem (s : State) (x : RegIdx) (b : Byte) : (s.setV x b).mem = s.mem := rfl
@[simp] theorem State.setV_V (s : State) (x : RegIdx) (b : Byte) : (s.setV x b).V = s.V.set x b := rfl
@[simp] theorem State.setV_I (s : State) (x : RegIdx) (b : Byte) : (s.setV x b).I = s.I := rfl
@[simp] theorem State.setV_PC (s : State) (x : RegIdx) (b : Byte) : (s.setV x b).PC = s.PC := rfl
@[simp] theorem State.setV_stack (s : State) (x : RegIdx) (b : Byte) : (s.setV x b).stack = s.stack := rfl
@[simp] theorem State.setV_SP (s : State) (x : RegIdx) (b : Byte) : (s.setV x b).SP = s.SP := rfl
@[simp] theorem State.setV_DT (s : State) (x : RegIdx) (b : Byte) : (s.setV x b).DT = s.DT := rfl
@[simp] theorem State.setV_ST (s : State) (x : RegIdx) (b : Byte) : (s.setV x b).ST = s.ST := rfl
@[simp] theorem State.setV_FB (s : State) (x : RegIdx) (b : Byte) : (s.setV x b).FB = s.FB := rfl
@[simp] theorem State.setV_keys (s : State) (x : RegIdx) (b : Byte) : (s.setV x b).keys = s.keys := rfl
@[simp] theorem State.setV_halted (s : State) (x : RegIdx) (b : Byte) : (s.setV x b).halted = s.halted := rfl
@[simp] theorem State.setV_drawIndex (s : State) (x : RegIdx) (b : Byte) : (s.setV x b).drawIndex = s.drawIndex := rfl

/-! ### `setRegs` -/

@[simp] theorem State.setRegs_cfg (s : State) (v : Vector Byte 16) : (s.setRegs v).cfg = s.cfg := rfl
@[simp] theorem State.setRegs_mem (s : State) (v : Vector Byte 16) : (s.setRegs v).mem = s.mem := rfl
@[simp] theorem State.setRegs_V (s : State) (v : Vector Byte 16) : (s.setRegs v).V = v := rfl
@[simp] theorem State.setRegs_I (s : State) (v : Vector Byte 16) : (s.setRegs v).I = s.I := rfl
@[simp] theorem State.setRegs_PC (s : State) (v : Vector Byte 16) : (s.setRegs v).PC = s.PC := rfl
@[simp] theorem State.setRegs_stack (s : State) (v : Vector Byte 16) : (s.setRegs v).stack = s.stack := rfl
@[simp] theorem State.setRegs_SP (s : State) (v : Vector Byte 16) : (s.setRegs v).SP = s.SP := rfl
@[simp] theorem State.setRegs_DT (s : State) (v : Vector Byte 16) : (s.setRegs v).DT = s.DT := rfl
@[simp] theorem State.setRegs_ST (s : State) (v : Vector Byte 16) : (s.setRegs v).ST = s.ST := rfl
@[simp] theorem State.setRegs_FB (s : State) (v : Vector Byte 16) : (s.setRegs v).FB = s.FB := rfl
@[simp] theorem State.setRegs_keys (s : State) (v : Vector Byte 16) : (s.setRegs v).keys = s.keys := rfl
@[simp] theorem State.setRegs_halted (s : State) (v : Vector Byte 16) : (s.setRegs v).halted = s.halted := rfl
@[simp] theorem State.setRegs_drawIndex (s : State) (v : Vector Byte 16) : (s.setRegs v).drawIndex = s.drawIndex := rfl

/-! ### `setI` -/

@[simp] theorem State.setI_cfg (s : State) (w : Word) : (s.setI w).cfg = s.cfg := rfl
@[simp] theorem State.setI_mem (s : State) (w : Word) : (s.setI w).mem = s.mem := rfl
@[simp] theorem State.setI_V (s : State) (w : Word) : (s.setI w).V = s.V := rfl
@[simp] theorem State.setI_I (s : State) (w : Word) : (s.setI w).I = w := rfl
@[simp] theorem State.setI_PC (s : State) (w : Word) : (s.setI w).PC = s.PC := rfl
@[simp] theorem State.setI_stack (s : State) (w : Word) : (s.setI w).stack = s.stack := rfl
@[simp] theorem State.setI_SP (s : State) (w : Word) : (s.setI w).SP = s.SP := rfl
@[simp] theorem State.setI_DT (s : State) (w : Word) : (s.setI w).DT = s.DT := rfl
@[simp] theorem State.setI_ST (s : State) (w : Word) : (s.setI w).ST = s.ST := rfl
@[simp] theorem State.setI_FB (s : State) (w : Word) : (s.setI w).FB = s.FB := rfl
@[simp] theorem State.setI_keys (s : State) (w : Word) : (s.setI w).keys = s.keys := rfl
@[simp] theorem State.setI_halted (s : State) (w : Word) : (s.setI w).halted = s.halted := rfl
@[simp] theorem State.setI_drawIndex (s : State) (w : Word) : (s.setI w).drawIndex = s.drawIndex := rfl

/-! ### `setPC` -/

@[simp] theorem State.setPC_cfg (s : State) (w : Word) : (s.setPC w).cfg = s.cfg := rfl
@[simp] theorem State.setPC_mem (s : State) (w : Word) : (s.setPC w).mem = s.mem := rfl
@[simp] theorem State.setPC_V (s : State) (w : Word) : (s.setPC w).V = s.V := rfl
@[simp] theorem State.setPC_I (s : State) (w : Word) : (s.setPC w).I = s.I := rfl
@[simp] theorem State.setPC_PC (s : State) (w : Word) : (s.setPC w).PC = w := rfl
@[simp] theorem State.setPC_stack (s : State) (w : Word) : (s.setPC w).stack = s.stack := rfl
@[simp] theorem State.setPC_SP (s : State) (w : Word) : (s.setPC w).SP = s.SP := rfl
@[simp] theorem State.setPC_DT (s : State) (w : Word) : (s.setPC w).DT = s.DT := rfl
@[simp] theorem State.setPC_ST (s : State) (w : Word) : (s.setPC w).ST = s.ST := rfl
@[simp] theorem State.setPC_FB (s : State) (w : Word) : (s.setPC w).FB = s.FB := rfl
@[simp] theorem State.setPC_keys (s : State) (w : Word) : (s.setPC w).keys = s.keys := rfl
@[simp] theorem State.setPC_halted (s : State) (w : Word) : (s.setPC w).halted = s.halted := rfl
@[simp] theorem State.setPC_drawIndex (s : State) (w : Word) : (s.setPC w).drawIndex = s.drawIndex := rfl

/-! ### `setDT` -/

@[simp] theorem State.setDT_cfg (s : State) (b : Byte) : (s.setDT b).cfg = s.cfg := rfl
@[simp] theorem State.setDT_mem (s : State) (b : Byte) : (s.setDT b).mem = s.mem := rfl
@[simp] theorem State.setDT_V (s : State) (b : Byte) : (s.setDT b).V = s.V := rfl
@[simp] theorem State.setDT_I (s : State) (b : Byte) : (s.setDT b).I = s.I := rfl
@[simp] theorem State.setDT_PC (s : State) (b : Byte) : (s.setDT b).PC = s.PC := rfl
@[simp] theorem State.setDT_stack (s : State) (b : Byte) : (s.setDT b).stack = s.stack := rfl
@[simp] theorem State.setDT_SP (s : State) (b : Byte) : (s.setDT b).SP = s.SP := rfl
@[simp] theorem State.setDT_DT (s : State) (b : Byte) : (s.setDT b).DT = b := rfl
@[simp] theorem State.setDT_ST (s : State) (b : Byte) : (s.setDT b).ST = s.ST := rfl
@[simp] theorem State.setDT_FB (s : State) (b : Byte) : (s.setDT b).FB = s.FB := rfl
@[simp] theorem State.setDT_keys (s : State) (b : Byte) : (s.setDT b).keys = s.keys := rfl
@[simp] theorem State.setDT_halted (s : State) (b : Byte) : (s.setDT b).halted = s.halted := rfl
@[simp] theorem State.setDT_drawIndex (s : State) (b : Byte) : (s.setDT b).drawIndex = s.drawIndex := rfl

/-! ### `setST` -/

@[simp] theorem State.setST_cfg (s : State) (b : Byte) : (s.setST b).cfg = s.cfg := rfl
@[simp] theorem State.setST_mem (s : State) (b : Byte) : (s.setST b).mem = s.mem := rfl
@[simp] theorem State.setST_V (s : State) (b : Byte) : (s.setST b).V = s.V := rfl
@[simp] theorem State.setST_I (s : State) (b : Byte) : (s.setST b).I = s.I := rfl
@[simp] theorem State.setST_PC (s : State) (b : Byte) : (s.setST b).PC = s.PC := rfl
@[simp] theorem State.setST_stack (s : State) (b : Byte) : (s.setST b).stack = s.stack := rfl
@[simp] theorem State.setST_SP (s : State) (b : Byte) : (s.setST b).SP = s.SP := rfl
@[simp] theorem State.setST_DT (s : State) (b : Byte) : (s.setST b).DT = s.DT := rfl
@[simp] theorem State.setST_ST (s : State) (b : Byte) : (s.setST b).ST = b := rfl
@[simp] theorem State.setST_FB (s : State) (b : Byte) : (s.setST b).FB = s.FB := rfl
@[simp] theorem State.setST_keys (s : State) (b : Byte) : (s.setST b).keys = s.keys := rfl
@[simp] theorem State.setST_halted (s : State) (b : Byte) : (s.setST b).halted = s.halted := rfl
@[simp] theorem State.setST_drawIndex (s : State) (b : Byte) : (s.setST b).drawIndex = s.drawIndex := rfl

/-! ### `setFB` -/

@[simp] theorem State.setFB_cfg (s : State) (fb : Framebuffer) : (s.setFB fb).cfg = s.cfg := rfl
@[simp] theorem State.setFB_mem (s : State) (fb : Framebuffer) : (s.setFB fb).mem = s.mem := rfl
@[simp] theorem State.setFB_V (s : State) (fb : Framebuffer) : (s.setFB fb).V = s.V := rfl
@[simp] theorem State.setFB_I (s : State) (fb : Framebuffer) : (s.setFB fb).I = s.I := rfl
@[simp] theorem State.setFB_PC (s : State) (fb : Framebuffer) : (s.setFB fb).PC = s.PC := rfl
@[simp] theorem State.setFB_stack (s : State) (fb : Framebuffer) : (s.setFB fb).stack = s.stack := rfl
@[simp] theorem State.setFB_SP (s : State) (fb : Framebuffer) : (s.setFB fb).SP = s.SP := rfl
@[simp] theorem State.setFB_DT (s : State) (fb : Framebuffer) : (s.setFB fb).DT = s.DT := rfl
@[simp] theorem State.setFB_ST (s : State) (fb : Framebuffer) : (s.setFB fb).ST = s.ST := rfl
@[simp] theorem State.setFB_FB (s : State) (fb : Framebuffer) : (s.setFB fb).FB = fb := rfl
@[simp] theorem State.setFB_keys (s : State) (fb : Framebuffer) : (s.setFB fb).keys = s.keys := rfl
@[simp] theorem State.setFB_halted (s : State) (fb : Framebuffer) : (s.setFB fb).halted = s.halted := rfl
@[simp] theorem State.setFB_drawIndex (s : State) (fb : Framebuffer) : (s.setFB fb).drawIndex = s.drawIndex := rfl

/-! ### `setKeyBit` -/

@[simp] theorem State.setKeyBit_cfg (s : State) (k : KeyIdx) (p : Bool) : (s.setKeyBit k p).cfg = s.cfg := rfl
@[simp] theorem State.setKeyBit_mem (s : State) (k : KeyIdx) (p : Bool) : (s.setKeyBit k p).mem = s.mem := rfl
@[simp] theorem State.setKeyBit_V (s : State) (k : KeyIdx) (p : Bool) : (s.setKeyBit k p).V = s.V := rfl
@[simp] theorem State.setKeyBit_I (s : State) (k : KeyIdx) (p : Bool) : (s.setKeyBit k p).I = s.I := rfl
@[simp] theorem State.setKeyBit_PC (s : State) (k : KeyIdx) (p : Bool) : (s.setKeyBit k p).PC = s.PC := rfl
@[simp] theorem State.setKeyBit_stack (s : State) (k : KeyIdx) (p : Bool) : (s.setKeyBit k p).stack = s.stack := rfl
@[simp] theorem State.setKeyBit_SP (s : State) (k : KeyIdx) (p : Bool) : (s.setKeyBit k p).SP = s.SP := rfl
@[simp] theorem State.setKeyBit_DT (s : State) (k : KeyIdx) (p : Bool) : (s.setKeyBit k p).DT = s.DT := rfl
@[simp] theorem State.setKeyBit_ST (s : State) (k : KeyIdx) (p : Bool) : (s.setKeyBit k p).ST = s.ST := rfl
@[simp] theorem State.setKeyBit_FB (s : State) (k : KeyIdx) (p : Bool) : (s.setKeyBit k p).FB = s.FB := rfl
@[simp] theorem State.setKeyBit_keys (s : State) (k : KeyIdx) (p : Bool) : (s.setKeyBit k p).keys = s.keys.set k p := rfl
@[simp] theorem State.setKeyBit_halted (s : State) (k : KeyIdx) (p : Bool) : (s.setKeyBit k p).halted = s.halted := rfl
@[simp] theorem State.setKeyBit_drawIndex (s : State) (k : KeyIdx) (p : Bool) : (s.setKeyBit k p).drawIndex = s.drawIndex := rfl

/-! ### `setMem` -/

@[simp] theorem State.setMem_cfg (s : State) (m : Memory) : (s.setMem m).cfg = s.cfg := rfl
@[simp] theorem State.setMem_mem (s : State) (m : Memory) : (s.setMem m).mem = m := rfl
@[simp] theorem State.setMem_V (s : State) (m : Memory) : (s.setMem m).V = s.V := rfl
@[simp] theorem State.setMem_I (s : State) (m : Memory) : (s.setMem m).I = s.I := rfl
@[simp] theorem State.setMem_PC (s : State) (m : Memory) : (s.setMem m).PC = s.PC := rfl
@[simp] theorem State.setMem_stack (s : State) (m : Memory) : (s.setMem m).stack = s.stack := rfl
@[simp] theorem State.setMem_SP (s : State) (m : Memory) : (s.setMem m).SP = s.SP := rfl
@[simp] theorem State.setMem_DT (s : State) (m : Memory) : (s.setMem m).DT = s.DT := rfl
@[simp] theorem State.setMem_ST (s : State) (m : Memory) : (s.setMem m).ST = s.ST := rfl
@[simp] theorem State.setMem_FB (s : State) (m : Memory) : (s.setMem m).FB = s.FB := rfl
@[simp] theorem State.setMem_keys (s : State) (m : Memory) : (s.setMem m).keys = s.keys := rfl
@[simp] theorem State.setMem_halted (s : State) (m : Memory) : (s.setMem m).halted = s.halted := rfl
@[simp] theorem State.setMem_drawIndex (s : State) (m : Memory) : (s.setMem m).drawIndex = s.drawIndex := rfl

/-! ### `countDraw` -/

@[simp] theorem State.countDraw_cfg (s : State) : (s.countDraw).cfg = s.cfg := rfl
@[simp] theorem State.countDraw_mem (s : State) : (s.countDraw).mem = s.mem := rfl
@[simp] theorem State.countDraw_V (s : State) : (s.countDraw).V = s.V := rfl
@[simp] theorem State.countDraw_I (s : State) : (s.countDraw).I = s.I := rfl
@[simp] theorem State.countDraw_PC (s : State) : (s.countDraw).PC = s.PC := rfl
@[simp] theorem State.countDraw_stack (s : State) : (s.countDraw).stack = s.stack := rfl
@[simp] theorem State.countDraw_SP (s : State) : (s.countDraw).SP = s.SP := rfl
@[simp] theorem State.countDraw_DT (s : State) : (s.countDraw).DT = s.DT := rfl
@[simp] theorem State.countDraw_ST (s : State) : (s.countDraw).ST = s.ST := rfl
@[simp] theorem State.countDraw_FB (s : State) : (s.countDraw).FB = s.FB := rfl
@[simp] theorem State.countDraw_keys (s : State) : (s.countDraw).keys = s.keys := rfl
@[simp] theorem State.countDraw_halted (s : State) : (s.countDraw).halted = s.halted := rfl
@[simp] theorem State.countDraw_drawIndex (s : State) : (s.countDraw).drawIndex = s.drawIndex + 1 := rfl

/-! ### `advance` -/

@[simp] theorem State.advance_cfg (s : State) : (s.advance).cfg = s.cfg := rfl
@[simp] theorem State.advance_mem (s : State) : (s.advance).mem = s.mem := rfl
@[simp] theorem State.advance_V (s : State) : (s.advance).V = s.V := rfl
@[simp] theorem State.advance_I (s : State) : (s.advance).I = s.I := rfl
@[simp] theorem State.advance_PC (s : State) : (s.advance).PC = s.PC + 2 := rfl
@[simp] theorem State.advance_stack (s : State) : (s.advance).stack = s.stack := rfl
@[simp] theorem State.advance_SP (s : State) : (s.advance).SP = s.SP := rfl
@[simp] theorem State.advance_DT (s : State) : (s.advance).DT = s.DT := rfl
@[simp] theorem State.advance_ST (s : State) : (s.advance).ST = s.ST := rfl
@[simp] theorem State.advance_FB (s : State) : (s.advance).FB = s.FB := rfl
@[simp] theorem State.advance_keys (s : State) : (s.advance).keys = s.keys := rfl
@[simp] theorem State.advance_halted (s : State) : (s.advance).halted = s.halted := rfl
@[simp] theorem State.advance_drawIndex (s : State) : (s.advance).drawIndex = s.drawIndex := rfl

/-! ### `raise` -/

@[simp] theorem State.raise_cfg (s : State) (e : ErrorRecord) : (s.raise e).cfg = s.cfg := rfl
@[simp] theorem State.raise_mem (s : State) (e : ErrorRecord) : (s.raise e).mem = s.mem := rfl
@[simp] theorem State.raise_V (s : State) (e : ErrorRecord) : (s.raise e).V = s.V := rfl
@[simp] theorem State.raise_I (s : State) (e : ErrorRecord) : (s.raise e).I = s.I := rfl
@[simp] theorem State.raise_PC (s : State) (e : ErrorRecord) : (s.raise e).PC = s.PC := rfl
@[simp] theorem State.raise_stack (s : State) (e : ErrorRecord) : (s.raise e).stack = s.stack := rfl
@[simp] theorem State.raise_SP (s : State) (e : ErrorRecord) : (s.raise e).SP = s.SP := rfl
@[simp] theorem State.raise_DT (s : State) (e : ErrorRecord) : (s.raise e).DT = s.DT := rfl
@[simp] theorem State.raise_ST (s : State) (e : ErrorRecord) : (s.raise e).ST = s.ST := rfl
@[simp] theorem State.raise_FB (s : State) (e : ErrorRecord) : (s.raise e).FB = s.FB := rfl
@[simp] theorem State.raise_keys (s : State) (e : ErrorRecord) : (s.raise e).keys = s.keys := rfl
@[simp] theorem State.raise_halted (s : State) (e : ErrorRecord) : (s.raise e).halted = some e := rfl
@[simp] theorem State.raise_drawIndex (s : State) (e : ErrorRecord) : (s.raise e).drawIndex = s.drawIndex := rfl

/-! ### Reading V after a write -/

theorem State.setV_getElem (s : State) (x k : RegIdx) (b : Byte) :
    (s.setV x b).V[k] = if x = k then b else s.V[k] := by
  simp [Fin.getElem_fin, Vector.getElem_set, Fin.ext_iff]

theorem State.setV_getElem_self (s : State) (x : RegIdx) (b : Byte) : (s.setV x b).V[x] = b := by
  rw [State.setV_getElem, if_pos rfl]

theorem State.setV_getElem_ne (s : State) {x k : RegIdx} (b : Byte) (h : k ≠ x) : (s.setV x b).V[k] = s.V[k] := by
  rw [State.setV_getElem, if_neg (Ne.symm h)]

/-- What `setWithFlag` leaves in each register: the flag in VF, whatever x is (D13), and else the result in Vx. -/
theorem State.setWithFlag_getElem (s : State) (x k : RegIdx) (r f : Byte) :
    (s.setWithFlag x r f).V[k] = if vf = k then f else if x = k then r else s.V[k] := by
  rw [State.setWithFlag, State.setV_getElem, State.setV_getElem]

/-- What `setLogic` leaves in each register: 0 in VF under LOGIC_RESETS_VF, and else the result in Vx. -/
theorem State.setLogic_getElem (s : State) (x k : RegIdx) (r : Byte) :
    (s.setLogic x r).V[k] = if s.cfg.logicResetsVf = true ∧ vf = k then 0 else if x = k then r else s.V[k] := by
  unfold State.setLogic
  split
  · rw [State.setWithFlag_getElem]; simp_all
  · rw [State.setV_getElem]; simp_all

/-- A skip changes PC alone. -/
theorem State.skipIf_eq (s : State) (c : Bool) : s.skipIf c = s.setPC (if c then s.PC + 2 else s.PC) := by
  cases c <;> rfl

/-- The quirk of R91 and R92 changes I alone. -/
theorem State.moveIndex_eq (s : State) (x : RegIdx) :
    s.moveIndex x =
      s.setI (if s.cfg.loadStoreIncrementsI then BitVec.ofNat 16 (s.I.toNat + x.val + 1) else s.I) := by
  unfold State.moveIndex
  split <;> simp_all [State.setI]

/-- A logic operation writes V alone. -/
theorem State.setLogic_eq (s : State) (x : RegIdx) (r : Byte) :
    s.setLogic x r = s.setRegs (if s.cfg.logicResetsVf then (s.V.set x r).set vf 0 else s.V.set x r) := by
  unfold State.setLogic
  split <;> rfl

/-- A result with a flag writes V alone. -/
theorem State.setWithFlag_eq (s : State) (x : RegIdx) (r f : Byte) :
    s.setWithFlag x r f = s.setRegs ((s.V.set x r).set vf f) := rfl

end Sys2Proof.Machine
end

