-- ==== Sys2Proof/Laws/Ops.lean ====
section
/-! SUPPORT. One lemma per shared operation that says everything it can do, for proofs to cite instead of unfolding it. -/

namespace Sys2Proof.Machine

/-- The fetch (R49): out of range, or the word at PC. -/
theorem fetchWord_cases (s : State) :
    (0xFFE < s.PC.toNat ∧ fetchWord s = .error (.memoryOutOfRange (max s.PC.toNat 0x1000))) ∨
    (s.PC.toNat ≤ 0xFFE ∧ fetchWord s = .ok s.wordAtPC) := by
  unfold fetchWord outOfRange
  split
  · exact .inl ⟨by omega, rfl⟩
  · exact .inr ⟨by omega, rfl⟩

/-- The step cycle (R49, R103): everything a step can do. -/
theorem step_cases (s : State) :
    (∃ e, s.halted = some e ∧ step s = .next s) ∨
    (s.halted = none ∧ 0xFFE < s.PC.toNat ∧
      step s = .next (s.raise (.memoryOutOfRange (max s.PC.toNat 0x1000)))) ∨
    (s.halted = none ∧ s.PC.toNat ≤ 0xFFE ∧ (∃ e, decodeWord s.wordAtPC = .error e) ∧
      step s = .next (s.advance.raise (.unknownInstruction s.wordAtPC s.PC))) ∨
    (∃ i, s.AtInstr i ∧ step s = exec i s.advance) := by
  unfold step
  rcases hh : s.halted with _ | e
  · rcases fetchWord_cases s with ⟨hr, hf⟩ | ⟨hr, hf⟩
    · exact .inr (.inl ⟨rfl, hr, by simp [hf]⟩)
    · rcases hd : decodeWord s.wordAtPC with e | i
      · exact .inr (.inr (.inl ⟨rfl, hr, ⟨e, rfl⟩, by simp [hf, hd]⟩))
      · exact .inr (.inr (.inr ⟨i, ⟨hh, hr, hd⟩, by simp [hf, hd]⟩))
  · exact .inl ⟨e, rfl, rfl⟩

theorem step_of_atInstr {s : State} {i : Instr} (h : s.AtInstr i) : step s = exec i s.advance := by
  obtain ⟨hh, hr, hd⟩ := h
  rcases fetchWord_cases s with ⟨hr', -⟩ | ⟨-, hf⟩
  · omega
  · simp [step, hh, hf, hd]

/-- A push (R22). -/
theorem State.push_cases (s : State) (w : Word) :
    (s.SP = 16 ∧ s.push w = none) ∨
    (∃ h : s.SP.val < 16,
      s.push w = some { s with stack := s.stack.set s.SP.val w, SP := ⟨s.SP.val + 1, by omega⟩ }) := by
  unfold State.push
  split
  · exact .inr ⟨‹_›, rfl⟩
  · exact .inl ⟨Fin.ext (by have := s.SP.isLt; simp; omega), rfl⟩

/-- A pop (R22, R23). -/
theorem State.pop_cases (s : State) :
    (s.SP = 0 ∧ s.pop = none) ∨
    (∃ h : 0 < s.SP.val,
      s.pop = some (s.stack[s.SP.val - 1]'(by have := s.SP.isLt; omega), { s with SP := ⟨s.SP.val - 1, by omega⟩ })) := by
  unfold State.pop
  split
  · exact .inr ⟨‹_›, rfl⟩
  · exact .inl ⟨Fin.ext (by simp; omega), rfl⟩

/-- The key operand of SKP and SKNP (R96). -/
theorem State.keyOperand_cases (s : State) (x : RegIdx) :
    (0xF < s.V[x].toNat ∧ s.keyOperand x = none) ∨
    (∃ h : s.V[x].toNat < 16, s.keyOperand x = some ⟨s.V[x].toNat, h⟩) := by
  unfold State.keyOperand State.reg
  split
  · exact .inr ⟨‹_›, rfl⟩
  · exact .inl ⟨by omega, rfl⟩

/-- The key `LD Vx, K` takes (R97): the lowest pressed one. -/
theorem lowestPressed_cases (keys : Vector Bool 16) :
    ((∀ k : KeyIdx, keys[k] = false) ∧ lowestPressed keys = none) ∨
    (∃ k : KeyIdx, keys[k] = true ∧ (∀ j : KeyIdx, j < k → keys[j] = false) ∧ lowestPressed keys = some k) := by
  unfold lowestPressed
  rcases hf : (List.finRange 16).find? (fun k => keys[k]) with _ | k
  · refine .inl ⟨fun k => ?_, rfl⟩
    simpa using List.find?_eq_none.mp hf k (List.mem_finRange k)
  · refine .inr ⟨k, List.find?_some (p := fun k : KeyIdx => keys[k]) hf, fun j hj => ?_, rfl⟩
    obtain ⟨-, as, bs, hsplit, has⟩ := List.find?_eq_some_iff_append.mp hf
    have hp : (List.finRange 16).Pairwise (· < ·) := by decide
    have hjm : j ∈ as ++ k :: bs := hsplit ▸ List.mem_finRange j
    rcases List.mem_append.mp hjm with h | h
    · simpa using has j h
    · rw [hsplit, List.pairwise_append, List.pairwise_cons] at hp
      rcases List.mem_cons.mp h with rfl | h
      · exact absurd hj (lt_irrefl _)
      · exact absurd hj (not_lt.mpr (le_of_lt (hp.2.1.1 j h)))

/-- The rows `DRW` reads (R84). -/
theorem State.spriteRows_cases (s : State) (n : Fin 16) :
    (n = 0 ∧ s.spriteRows n = .ok []) ∨
    (n ≠ 0 ∧ 0x1000 < s.I.toNat + n.val ∧ s.spriteRows n = .error (.memoryOutOfRange (max s.I.toNat 0x1000))) ∨
    (n ≠ 0 ∧ s.I.toNat + n.val ≤ 0x1000 ∧ s.spriteRows n = .ok (s.mem.readBytes s.I.toNat n.val)) := by
  unfold State.spriteRows State.base
  by_cases h : n = 0
  · subst h; exact .inl ⟨rfl, rfl⟩
  · have hv : n.val ≠ 0 := fun hv => h (Fin.ext hv)
    rw [if_neg hv]
    rcases memRead_cases s.mem s.I.toNat n.val with ⟨hr, he⟩ | ⟨hr, he⟩
    · exact .inr (.inl ⟨h, by omega, he⟩)
    · exact .inr (.inr ⟨h, by omega, he⟩)

@[simp] theorem State.regBlock_length (s : State) (x : RegIdx) : (s.regBlock x).length = x.val + 1 := by
  simp [State.regBlock]

theorem State.regBlock_getElem (s : State) (x : RegIdx) (k : Nat) (h : k < (s.regBlock x).length) :
    (s.regBlock x)[k] = s.V[k]'(by rw [State.regBlock_length] at h; omega) := by
  simp [State.regBlock]

/-- What a block load leaves in each register (R92). -/
theorem loadBlock_getElem (v : Vector Byte 16) (k : Nat) (bs : List Byte) (j : Nat) (hj : j < 16) :
    (loadBlock v k bs)[j] = if h : k ≤ j ∧ j < k + bs.length then bs[j - k] else v[j] := by
  induction bs generalizing v k with
  | nil => rw [dif_neg (by simp only [List.length_nil]; omega)]; rfl
  | cons b bs ih =>
    rw [loadBlock, ih, Vector.getElem_setIfInBounds]
    by_cases hk : k = j
    · subst hk
      rw [dif_neg (by omega), if_pos rfl, dif_pos (by simp only [List.length_cons]; omega)]
      simp
    · by_cases hin : k + 1 ≤ j ∧ j < k + 1 + bs.length
      · rw [dif_pos hin, dif_pos (by simp only [List.length_cons]; omega)]
        simp only [show j - k = (j - (k + 1)) + 1 by omega, List.getElem_cons_succ]
      · rw [dif_neg hin, if_neg hk, dif_neg (by simp only [List.length_cons]; omega)]

/-- A tick's countdown (R111): one less, with floor 0. -/
theorem countDown_toNat (b : Byte) : (countDown b).toNat = b.toNat - 1 := by
  unfold countDown
  split <;> bv_omega

end Sys2Proof.Machine
end

