-- ==== Sys2Proof/Laws/Exec.lean ====
section
/-! SUPPORT. What every meaning has in common. -/

namespace Sys2Proof.Machine

/-- Everything `exec` can do to the halt status: nothing, or raise one error on the state it was given (R101, R103). -/
theorem exec_halts_or_keeps {i : Instr} {s t : State} (h : exec i s = .next t) :
    t.halted = s.halted ∨ ∃ e, t = s.raise e := by
  cases i <;> simp only [exec] at h
  case sys => unfold execSys raise at h; split at h <;> cases h <;> simp
  case ret =>
    unfold execRet raise at h
    rcases s.pop_cases with ⟨-, hp⟩ | ⟨_, hp⟩ <;> rw [hp] at h <;> cases h
    · exact .inr ⟨_, rfl⟩
    · exact .inl rfl
  case call =>
    unfold execCall raise at h
    rcases s.push_cases s.PC with ⟨-, hp⟩ | ⟨_, hp⟩ <;> rw [hp] at h <;> cases h
    · exact .inr ⟨_, rfl⟩
    · exact .inl rfl
  case drw => unfold execDrw raise at h; split at h <;> cases h <;> simp
  case skp => unfold execSkp raise at h; split at h <;> cases h <;> simp [State.skipIf_eq]
  case sknp => unfold execSknp raise at h; split at h <;> cases h <;> simp [State.skipIf_eq]
  case ldVxK => unfold execLdVxK at h; split at h <;> cases h <;> simp
  case ldB => unfold execLdB raise at h; split at h <;> cases h <;> simp
  case storeRegs => unfold execStoreRegs raise at h; split at h <;> cases h <;> simp [State.moveIndex_eq]
  case loadRegs => unfold execLoadRegs raise at h; split at h <;> cases h <;> simp [State.moveIndex_eq]
  all_goals cases h; left; simp [State.skipIf_eq, State.setLogic_eq, State.setWithFlag_eq]

end Sys2Proof.Machine
end

