-- ==== Sys2Proof/Laws/PerInstr.lean ====
section
/-! SUPPORT. Statements made per instruction. Family `TableRow`: the word the encoder writes lies in the instruction's own row of
the opcode map (spec/30_encoding.md R52, "A word matches a row when `w & mask = match`"). -/

namespace Sys2Proof.Laws.TableRow

/-- The encoder's word matches its row of R52. -/
def Statement (i : Instr) : Prop := encode i &&& rowMask i = rowMatch i

theorem wordNNN_op (op : BitVec 4) (nnn : Addr12) : wordNNN op nnn &&& 0xF000#16 = wordNNN op 0 := by
  refine BitVec.eq_of_getLsbD_eq fun i hi => ?_
  simp only [BitVec.getLsbD_and, wordNNN_getLsbD]
  interval_cases i <;> simp

theorem wordXKK_op (op : BitVec 4) (x : RegIdx) (kk : Byte) : wordXKK op x kk &&& 0xF000#16 = wordXKK op 0 0 := by
  refine BitVec.eq_of_getLsbD_eq fun i hi => ?_
  simp only [BitVec.getLsbD_and, wordXKK_getLsbD]
  interval_cases i <;> simp

theorem wordXKK_fn (op : BitVec 4) (x : RegIdx) (kk : Byte) : wordXKK op x kk &&& 0xF0FF#16 = wordXKK op 0 kk := by
  refine BitVec.eq_of_getLsbD_eq fun i hi => ?_
  simp only [BitVec.getLsbD_and, wordXKK_getLsbD]
  interval_cases i <;> simp

theorem wordXYN_op (op : BitVec 4) (x y : RegIdx) (n : BitVec 4) :
    wordXYN op x y n &&& 0xF000#16 = wordXYN op 0 0 0 := by
  refine BitVec.eq_of_getLsbD_eq fun i hi => ?_
  simp only [BitVec.getLsbD_and, wordXYN_getLsbD]
  interval_cases i <;> simp

theorem wordXYN_fn (op : BitVec 4) (x y : RegIdx) (n : BitVec 4) :
    wordXYN op x y n &&& 0xF00F#16 = wordXYN op 0 0 n := by
  refine BitVec.eq_of_getLsbD_eq fun i hi => ?_
  simp only [BitVec.getLsbD_and, wordXYN_getLsbD]
  interval_cases i <;> simp

theorem sys (nnn : Addr12) : Statement (.sys nnn) := wordNNN_op _ _
theorem cls : Statement (.cls) := by unfold Statement; decide
theorem ret : Statement (.ret) := by unfold Statement; decide
theorem jp (nnn : Addr12) : Statement (.jp nnn) := wordNNN_op _ _
theorem call (nnn : Addr12) : Statement (.call nnn) := wordNNN_op _ _
theorem seImm (x : RegIdx) (kk : Byte) : Statement (.seImm x kk) := wordXKK_op _ _ _
theorem sneImm (x : RegIdx) (kk : Byte) : Statement (.sneImm x kk) := wordXKK_op _ _ _
theorem seReg (x : RegIdx) (y : RegIdx) : Statement (.seReg x y) := wordXYN_op _ _ _ _
theorem ldImm (x : RegIdx) (kk : Byte) : Statement (.ldImm x kk) := wordXKK_op _ _ _
theorem addImm (x : RegIdx) (kk : Byte) : Statement (.addImm x kk) := wordXKK_op _ _ _
theorem ldReg (x : RegIdx) (y : RegIdx) : Statement (.ldReg x y) := wordXYN_fn _ _ _ _
theorem or (x : RegIdx) (y : RegIdx) : Statement (.or x y) := wordXYN_fn _ _ _ _
theorem and (x : RegIdx) (y : RegIdx) : Statement (.and x y) := wordXYN_fn _ _ _ _
theorem xor (x : RegIdx) (y : RegIdx) : Statement (.xor x y) := wordXYN_fn _ _ _ _
theorem addReg (x : RegIdx) (y : RegIdx) : Statement (.addReg x y) := wordXYN_fn _ _ _ _
theorem sub (x : RegIdx) (y : RegIdx) : Statement (.sub x y) := wordXYN_fn _ _ _ _
theorem shr (x : RegIdx) (y : RegIdx) : Statement (.shr x y) := wordXYN_fn _ _ _ _
theorem subn (x : RegIdx) (y : RegIdx) : Statement (.subn x y) := wordXYN_fn _ _ _ _
theorem shl (x : RegIdx) (y : RegIdx) : Statement (.shl x y) := wordXYN_fn _ _ _ _
theorem sneReg (x : RegIdx) (y : RegIdx) : Statement (.sneReg x y) := wordXYN_op _ _ _ _
theorem ldI (nnn : Addr12) : Statement (.ldI nnn) := wordNNN_op _ _
theorem jpV0 (nnn : Addr12) : Statement (.jpV0 nnn) := wordNNN_op _ _
theorem rnd (x : RegIdx) (kk : Byte) : Statement (.rnd x kk) := wordXKK_op _ _ _
theorem drw (x : RegIdx) (y : RegIdx) (n : Fin 16) : Statement (.drw x y n) := wordXYN_op _ _ _ _
theorem skp (x : RegIdx) : Statement (.skp x) := wordXKK_fn _ _ _
theorem sknp (x : RegIdx) : Statement (.sknp x) := wordXKK_fn _ _ _
theorem ldVxDt (x : RegIdx) : Statement (.ldVxDt x) := wordXKK_fn _ _ _
theorem ldVxK (x : RegIdx) : Statement (.ldVxK x) := wordXKK_fn _ _ _
theorem ldDtVx (x : RegIdx) : Statement (.ldDtVx x) := wordXKK_fn _ _ _
theorem ldStVx (x : RegIdx) : Statement (.ldStVx x) := wordXKK_fn _ _ _
theorem addI (x : RegIdx) : Statement (.addI x) := wordXKK_fn _ _ _
theorem ldF (x : RegIdx) : Statement (.ldF x) := wordXKK_fn _ _ _
theorem ldB (x : RegIdx) : Statement (.ldB x) := wordXKK_fn _ _ _
theorem storeRegs (x : RegIdx) : Statement (.storeRegs x) := wordXKK_fn _ _ _
theorem loadRegs (x : RegIdx) : Statement (.loadRegs x) := wordXKK_fn _ _ _

end Sys2Proof.Laws.TableRow
end

