-- ==== Sys2Proof/Tests/Slice0.lean ====
section
/-! SUPPORT. The model's own tests. Expected results come from the worked examples and vectors of spec/95_test_vectors.md (S, E, C,
A, G, M, K, L rows) and from the rules named. Each is one step on the reset state with a few fields set. Then a witness for the
hypotheses of every statement that has some. -/

namespace Sys2Proof.Tests

open Sys2Proof Sys2Proof.Machine

/-- The reset state with some fields set, and the word `w` where the next step fetches. -/
def start (w : Nat) (f : State → State) : State := (f State.reset).withFetchWord 16 w

/-- One step answers a next state, and `p` holds of it. -/
def stepTo (s : State) (p : State → Bool) : Bool :=
  match step s with
  | .next t => p t
  | .fault _ => false
  | .refused _ => false

/-- One command of the host answers a next state and a result, and `p` holds of them. -/
def issueTo (c : Command) (s : State) (p : State → Result → Bool) : Bool :=
  match issue c s with
  | .next (t, r) => p t r
  | .fault _ => false
  | .refused _ => false

/-- `V[x] <- b` for each pair in turn. -/
def withV (vs : List (RegIdx × Byte)) (s : State) : State := vs.foldl (fun s p => s.setV p.1 p.2) s

/-! ### WellFormed (R52) -/

theorem test_sys_00E0_is_ill_formed : ¬ (Instr.sys 0x0E0).WellFormed := by decide
theorem test_sys_00EE_is_ill_formed : ¬ (Instr.sys 0x0EE).WellFormed := by decide
theorem test_sys_123_is_well_formed : (Instr.sys 0x123).WellFormed := by decide

/-! ### Decoding: a word of each row, written out from R52 -/

theorem test_decode_sys : decodeWord 0x0123 = .ok (.sys 0x123) := by decide
theorem test_decode_cls : decodeWord 0x00E0 = .ok .cls := by decide
theorem test_decode_ret : decodeWord 0x00EE = .ok .ret := by decide
theorem test_decode_jp : decodeWord 0x1ABC = .ok (.jp 0xABC) := by decide
theorem test_decode_call : decodeWord 0x220A = .ok (.call 0x20A) := by decide
theorem test_decode_seImm : decodeWord 0x3142 = .ok (.seImm 1 0x42) := by decide
theorem test_decode_sneImm : decodeWord 0x4143 = .ok (.sneImm 1 0x43) := by decide
theorem test_decode_seReg : decodeWord 0x5121 = .ok (.seReg 1 2) := by decide
theorem test_decode_ldImm : decodeWord 0x6A42 = .ok (.ldImm 10 0x42) := by decide
theorem test_decode_addImm : decodeWord 0x7302 = .ok (.addImm 3 0x02) := by decide
theorem test_decode_ldReg : decodeWord 0x8120 = .ok (.ldReg 1 2) := by decide
theorem test_decode_or : decodeWord 0x8121 = .ok (.or 1 2) := by decide
theorem test_decode_and : decodeWord 0x8122 = .ok (.and 1 2) := by decide
theorem test_decode_xor : decodeWord 0x8123 = .ok (.xor 1 2) := by decide
theorem test_decode_addReg : decodeWord 0x8F14 = .ok (.addReg 15 1) := by decide
theorem test_decode_sub : decodeWord 0x8015 = .ok (.sub 0 1) := by decide
theorem test_decode_shr : decodeWord 0x8126 = .ok (.shr 1 2) := by decide
theorem test_decode_subn : decodeWord 0x8127 = .ok (.subn 1 2) := by decide
theorem test_decode_shl : decodeWord 0x812E = .ok (.shl 1 2) := by decide
theorem test_decode_sneReg : decodeWord 0x9127 = .ok (.sneReg 1 2) := by decide
theorem test_decode_ldI : decodeWord 0xA123 = .ok (.ldI 0x123) := by decide
theorem test_decode_jpV0 : decodeWord 0xB500 = .ok (.jpV0 0x500) := by decide
theorem test_decode_rnd : decodeWord 0xC30F = .ok (.rnd 3 0x0F) := by decide
theorem test_decode_drw : decodeWord 0xD01F = .ok (.drw 0 1 15) := by decide
theorem test_decode_skp : decodeWord 0xE19E = .ok (.skp 1) := by decide
theorem test_decode_sknp : decodeWord 0xE1A1 = .ok (.sknp 1) := by decide
theorem test_decode_ldVxDt : decodeWord 0xF307 = .ok (.ldVxDt 3) := by decide
theorem test_decode_ldVxK : decodeWord 0xF30A = .ok (.ldVxK 3) := by decide
theorem test_decode_ldDtVx : decodeWord 0xF015 = .ok (.ldDtVx 0) := by decide
theorem test_decode_ldStVx : decodeWord 0xF218 = .ok (.ldStVx 2) := by decide
theorem test_decode_addI : decodeWord 0xF21E = .ok (.addI 2) := by decide
theorem test_decode_ldF : decodeWord 0xF529 = .ok (.ldF 5) := by decide
theorem test_decode_ldB : decodeWord 0xF033 = .ok (.ldB 0) := by decide
theorem test_decode_storeRegs : decodeWord 0xFF55 = .ok (.storeRegs 15) := by decide
theorem test_decode_loadRegs : decodeWord 0xF265 = .ok (.loadRegs 2) := by decide
theorem test_decode_unknown_8 : decodeWord 0x800F = .error (.unknownFamily8 0x800F) := by decide
theorem test_decode_unknown_E : decodeWord 0xE000 = .error (.unknownFamilyE 0xE000) := by decide
theorem test_decode_unknown_F : decodeWord 0xF030 = .error (.unknownFamilyF 0xF030) := by decide
theorem test_decode_one_byte : decodeBytes [0x60] = .error .truncated := by decide
theorem test_table_word : decodeTableWord 16 0xD013 = some (.drw 0 1 3) := by decide

/-! ### The step cycle and errors (2.1) -/

/-- E2: a fetch at 0xFFF. -/
theorem test_fetch_past_the_top : stepTo { State.reset with PC := 0xFFF }
    (fun t => t.PC = 0xFFF && t.halted = some (.memoryOutOfRange 0x1000)) = true := by decide
/-- S10, E5: an unknown word. -/
theorem test_unknown_word : stepTo (start 0x800F id)
    (fun t => t.PC = 0x202 && t.halted = some (.unknownInstruction 0x800F 0x200)) = true := by decide
/-- E9: a halted core. -/
theorem test_halted_again : issueTo .step { State.reset with halted := some (.unknownInstruction 0x800F 0x200) }
    (fun t r => t.PC = 0x200 && r = .error (.unknownInstruction 0x800F 0x200)) = true := by decide
/-- E4: an odd fetch is legal. -/
theorem test_odd_fetch : stepTo (start 0x602A (fun s => s.setPC 0x201)) (fun t => t.V[0] = 0x2A && t.PC = 0x203) = true := by decide

/-! ### Control flow (2.2) -/

/-- E11, the default policy. -/
theorem test_sys_fault : stepTo (start 0x0123 id)
    (fun t => t.PC = 0x202 && t.halted = some (.unknownInstruction 0x0123 0x200)) = true := by decide
/-- E11, `SYS_POLICY = nop`. -/
theorem test_sys_nop : stepTo (start 0x0000 (fun s => { s with cfg := { s.cfg with sysPolicy := .nop } }))
    (fun t => t.PC = 0x202 && t.halted = none) = true := by decide
/-- C4. -/
theorem test_ret : stepTo (start 0x00EE (fun s => { s with SP := 1, stack := s.stack.set 0 0x206 }))
    (fun t => t.SP = 0 && t.PC = 0x206 && t.stack[0] = 0x206) = true := by decide
/-- S8, C5. -/
theorem test_ret_underflow : stepTo (start 0x00EE id)
    (fun t => t.SP = 0 && t.PC = 0x202 && t.halted = some (.stackUnderflow 0x200)) = true := by decide
/-- C1. -/
theorem test_jp : stepTo (start 0x1ABC id) (fun t => t.PC = 0xABC) = true := by decide
/-- C2. -/
theorem test_call : stepTo (start 0x220A (fun s => s.setPC 0x204))
    (fun t => t.stack[0] = 0x206 && t.SP = 1 && t.PC = 0x20A) = true := by decide
/-- C3. -/
theorem test_call_overflow : stepTo (start 0x2400 (fun s => { s with SP := 16, PC := 0x300 }))
    (fun t => t.SP = 16 && t.PC = 0x302 && t.halted = some (.stackOverflow 0x300)) = true := by decide
/-- C6. -/
theorem test_se_imm : stepTo (start 0x3142 (withV [(1, 0x42)])) (fun t => t.PC = 0x204) = true := by decide
/-- C9. -/
theorem test_sne_imm : stepTo (start 0x4142 (withV [(1, 0x42)])) (fun t => t.PC = 0x202) = true := by decide
/-- C11: n ≠ 0. -/
theorem test_se_reg : stepTo (start 0x5121 (withV [(1, 7), (2, 7)])) (fun t => t.PC = 0x204) = true := by decide
/-- C13. -/
theorem test_sne_reg : stepTo (start 0x9120 (withV [(1, 7), (2, 8)])) (fun t => t.PC = 0x204) = true := by decide
/-- C16. -/
theorem test_jp_v0_exact : stepTo (start 0xBFFF (withV [(0, 0xFF)])) (fun t => t.PC = 0x10FE) = true := by decide
/-- C17: V0, not V5. -/
theorem test_jp_v0_not_vx : stepTo (start 0xB500 (withV [(0, 1), (5, 0x40)])) (fun t => t.PC = 0x501) = true := by decide

/-! ### Registers and ALU (2.3) -/

/-- A1. -/
theorem test_ld_imm : stepTo (start 0x6A42 id) (fun t => t.V[10] = 0x42 && t.PC = 0x202) = true := by decide
/-- A2: no flag. -/
theorem test_add_imm : stepTo (start 0x7302 (withV [(3, 0xFF), (15, 0x77)])) (fun t => t.V[3] = 1 && t.V[15] = 0x77) = true := by decide
/-- A4. -/
theorem test_ld_reg : stepTo (start 0x8120 (withV [(2, 0x33)])) (fun t => t.V[1] = 0x33) = true := by decide
/-- A5, default. -/
theorem test_or : stepTo (start 0x8121 (withV [(1, 0x0F), (2, 0xF0), (15, 9)])) (fun t => t.V[1] = 0xFF && t.V[15] = 9) = true := by decide
/-- A5, `LOGIC_RESETS_VF = true`. -/
theorem test_or_resets_vf : stepTo (start 0x8121 (fun s => withV [(1, 0x0F), (2, 0xF0), (15, 9)]
    { s with cfg := { s.cfg with logicResetsVf := true } })) (fun t => t.V[1] = 0xFF && t.V[15] = 0) = true := by decide
/-- A6. -/
theorem test_and : stepTo (start 0x8122 (withV [(1, 0x3C), (2, 0x0F)])) (fun t => t.V[1] = 0x0C) = true := by decide
/-- A7. -/
theorem test_xor : stepTo (start 0x8123 (withV [(1, 0xFF), (2, 0x0F)])) (fun t => t.V[1] = 0xF0) = true := by decide
/-- S2. -/
theorem test_add_carry : stepTo (start 0x8014 (withV [(0, 0xFF), (1, 1)])) (fun t => t.V[0] = 0 && t.V[15] = 1) = true := by decide
/-- A13: x = F, the carry and not the sum. -/
theorem test_add_to_vf : stepTo (start 0x8F14 (withV [(15, 1), (1, 1)])) (fun t => t.V[15] = 0) = true := by decide
/-- S4. -/
theorem test_sub_borrow : stepTo (start 0x8015 (withV [(0, 1), (1, 2)])) (fun t => t.V[0] = 0xFF && t.V[15] = 0) = true := by decide
/-- A16: equal operands do not borrow. -/
theorem test_sub_equal : stepTo (start 0x8125 (withV [(1, 5), (2, 5)])) (fun t => t.V[1] = 0 && t.V[15] = 1) = true := by decide
/-- A22. -/
theorem test_subn_borrow : stepTo (start 0x8127 (withV [(1, 0x0A), (2, 5)])) (fun t => t.V[1] = 0xFB && t.V[15] = 0) = true := by decide
/-- A25, `VX`. -/
theorem test_shr_vx : stepTo (start 0x8126 (withV [(1, 4), (2, 0xFF)])) (fun t => t.V[1] = 2 && t.V[15] = 0) = true := by decide
/-- A25, `VY`. -/
theorem test_shr_vy : stepTo (start 0x8126 (fun s => withV [(1, 4), (2, 0xFF)]
    { s with cfg := { s.cfg with shiftSource := .vy } })) (fun t => t.V[1] = 0x7F && t.V[15] = 1) = true := by decide
/-- A30, `VX`. -/
theorem test_shl_vx : stepTo (start 0x812E (withV [(1, 1), (2, 0x80)])) (fun t => t.V[1] = 2 && t.V[15] = 0) = true := by decide
/-- A31: x = F. -/
theorem test_shl_vf : stepTo (start 0x8FFE (withV [(15, 0x80)])) (fun t => t.V[15] = 1) = true := by decide
/-- R80: the draw is masked, whatever it is, and counted. -/
theorem test_rnd : ∃ t, step (start 0xC30F id) = .next t ∧ t.V[3] = Config.drawByte 0 &&& 0x0F ∧ t.drawIndex = 1 :=
  ⟨_, rfl, rfl, rfl⟩

/-! ### Display (2.4) -/

/-- The reset state with I = 0x300, the bytes given from there, and (V0, V1) = (x, y). -/
def sprite (bytes : List Byte) (x y : Byte) (s : State) : State :=
  withV [(0, x), (1, y)] ((s.setI 0x300).setMem (Memory.writeBytes s.mem 0x300 bytes))

/-- G1. -/
theorem test_cls : stepTo (start 0x00E0 (fun s => (withV [(15, 5)] s).setFB (s.FB.flip 3 4)))
    (fun t => t.FB.pixel 3 4 = false && t.V[15] = 5) = true := by decide
/-- G2, `clip`: (60,0) to (63,0), and no wrap to column 0. -/
theorem test_drw_clips : stepTo (start 0xD011 (sprite [0xFF] 60 0))
    (fun t => t.FB.pixel 0 60 && t.FB.pixel 0 63 && !t.FB.pixel 0 0 && t.V[15] = 0) = true := by decide
/-- G4: a collision. -/
theorem test_drw_collides : stepTo (start 0xD011 (fun s => (sprite [0xC0] 0 0 s).setFB (s.FB.flip 0 0)))
    (fun t => !t.FB.pixel 0 0 && t.FB.pixel 0 1 && t.V[15] = 1) = true := by decide

/-! ### Index and memory (2.5) -/

/-- M1. -/
theorem test_ld_i : stepTo (start 0xA123 id) (fun t => t.I = 0x123) = true := by decide
/-- M3, the default limit. -/
theorem test_add_i_overflow : stepTo (start 0xF01E (fun s => withV [(0, 1)] (s.setI 0xFFF)))
    (fun t => t.I = 0x1000 && t.V[15] = 1) = true := by decide
/-- M5: x = F. -/
theorem test_add_i_vf : stepTo (start 0xFF1E (fun s => withV [(15, 0x20)] (s.setI 0xFF0)))
    (fun t => t.I = 0x1010 && t.V[15] = 1) = true := by decide
/-- M7, `mask`. -/
theorem test_ld_f_mask : stepTo (start 0xF529 (withV [(5, 0x1A)])) (fun t => t.I = 0x082) = true := by decide
/-- M7, `unmasked`. -/
theorem test_ld_f_unmasked : stepTo (start 0xF529 (fun s => withV [(5, 0x1A)]
    { s with cfg := { s.cfg with fontDigitPolicy := .unmasked } })) (fun t => t.I = 0x0D2) = true := by decide
/-- M10. -/
theorem test_bcd : stepTo (start 0xF033 (fun s => withV [(0, 255)] (s.setI 0x300)))
    (fun t => t.mem.readByte 0x300 = 2 && t.mem.readByte 0x301 = 5 && t.mem.readByte 0x302 = 5) = true := by decide
/-- M13: no byte is written. -/
theorem test_bcd_out_of_range : stepTo (start 0xF033 (fun s => withV [(0, 1)] (s.setI 0xFFE)))
    (fun t => t.mem.readByte 0xFFE = 0 && t.PC = 0x202 && t.halted = some (.memoryOutOfRange 0x1000)) = true := by decide
/-- M14. -/
theorem test_store : stepTo (start 0xF155 (fun s => withV [(0, 0x11), (1, 0x22)] (s.setI 0x400)))
    (fun t => t.mem.readByte 0x400 = 0x11 && t.mem.readByte 0x401 = 0x22 && t.I = 0x400) = true := by decide
/-- M14, `LOADSTORE_INCREMENTS_I = true`. -/
theorem test_store_moves_i : stepTo (start 0xF155 (fun s => (s.setI 0x400).setMem s.mem |> fun s =>
    { s with cfg := { s.cfg with loadStoreIncrementsI := true } })) (fun t => t.I = 0x402) = true := by decide
/-- M18. -/
theorem test_load : stepTo (start 0xF265 (fun s => (s.setI 0x300).setMem (Memory.writeBytes s.mem 0x300 [1, 5, 6])))
    (fun t => t.V[0] = 1 && t.V[1] = 5 && t.V[2] = 6 && t.V[3] = 0 && t.I = 0x300) = true := by decide
/-- M20: no register is written. -/
theorem test_load_out_of_range : stepTo (start 0xF065 (fun s => withV [(0, 0x44)] (s.setI 0x1000)))
    (fun t => t.V[0] = 0x44 && t.halted = some (.memoryOutOfRange 0x1000)) = true := by decide

/-! ### Keys and timers (2.6) -/

/-- K1. -/
theorem test_skp : stepTo (start 0xE19E (fun s => withV [(1, 5)] (s.setKeyBit 5 true))) (fun t => t.PC = 0x204) = true := by decide
/-- K5. -/
theorem test_skp_bad_key : stepTo (start 0xE19E (withV [(1, 0x10)]))
    (fun t => t.PC = 0x202 && t.halted = some (.invalidKeyIndex 0x10)) = true := by decide
/-- K3. -/
theorem test_sknp : stepTo (start 0xE1A1 (withV [(1, 5)])) (fun t => t.PC = 0x204) = true := by decide
/-- K9. -/
theorem test_ld_vx_dt : stepTo (start 0xF307 (fun s => s.setDT 0x3C)) (fun t => t.V[3] = 0x3C && t.DT = 0x3C) = true := by decide
/-- K6: the wait. -/
theorem test_key_wait : stepTo (start 0xF30A (fun s => s.setPC 0x300)) (fun t => t.PC = 0x300 && t.V[3] = 0) = true := by decide
/-- K7: the lowest key. -/
theorem test_key_taken : stepTo (start 0xF30A (fun s => ((s.setPC 0x300).setKeyBit 7 true).setKeyBit 3 true))
    (fun t => t.PC = 0x302 && t.V[3] = 3) = true := by decide
/-- S9. -/
theorem test_ld_dt : stepTo (start 0xF015 (withV [(0, 5)])) (fun t => t.DT = 5) = true := by decide
/-- K10. -/
theorem test_ld_st : stepTo (start 0xF218 (withV [(2, 1)])) (fun t => t.ST = 1 && isSoundActive t) = true := by decide

/-! ### The host's commands (2.6, 2.7) -/

/-- K11, K13. -/
theorem test_tick_floor : issueTo .tickTimers { State.reset with ST := 2, halted := some (.stackUnderflow 0x200) }
    (fun t r => t.DT = 0 && t.ST = 1 && r = .ok) = true := by decide
/-- K14. -/
theorem test_set_key_16 : issueTo (.setKey 16 true) State.reset
    (fun t r => t.keys[0] = false && r = .error (.invalidKeyIndex 16)) = true := by decide
/-- K15. -/
theorem test_set_key_4 : issueTo (.setKey 4 true) State.reset (fun t r => t.keys[4] && !t.keys[3] && r = .ok) = true := by decide
/-- L4, with the first bytes of program P1. -/
theorem test_load_program : issueTo (.load [0x6A, 0xFF])
    ((State.reset.setKeyBit 2 true).raise (.stackUnderflow 0x200))
    (fun t r => !t.keys[2] && t.halted = none && t.PC = 0x200 && t.mem.readByte 0x200 = 0x6A && t.mem.readByte 0x201 = 0xFF &&
      r = .ok) = true := by decide +kernel
/-- L3: the first step after loading nothing. -/
theorem test_step_after_reset : stepTo State.reset
    (fun t => t.PC = 0x202 && t.halted = some (.unknownInstruction 0x0000 0x200)) = true := by decide
/-- G22, spec/93: the glyph of 0xA in the conventional font. -/
theorem test_conventional_glyph_A : (Config.conventionalFont.toList.drop 50).take 5 = [0xF0, 0x90, 0xF0, 0x90, 0x90] := by decide

/-! ### Witnesses: for each statement with hypotheses, states and operands that meet them, clause by clause -/

theorem witness_DecodeEncodeRoundTrip : (Instr.sys 0x123).WellFormed ∧ (Instr.drw 15 15 15).WellFormed := by decide

theorem witness_DecodingFollowsTheOpcodeMap :
    decodeWord 0x8124 = .ok (.addReg 1 2) ∧
    (0x0123#16 &&& rowMask (.sys 0) = rowMatch (.sys 0) ∧ (0x0123#16 ≠ 0x00E0 ∧ 0x0123#16 ≠ 0x00EE)) ∧
    (0x00E0#16 &&& rowMask .cls = rowMatch .cls ∧ rowMatch .cls ≠ 0x0000) := by decide

theorem witness_EncodeOfDecodedWord :
    decodeWord 0x5121 = .ok (.seReg 1 2) ∧ 0x5121#16 >>> 12 = 0x5 ∧
    decodeWord 0x812E = .ok (.shl 1 2) ∧ ¬(0x812E#16 >>> 12 = 0x5 ∨ 0x812E#16 >>> 12 = 0x9) := by decide

theorem witness_StepRunsTheDecodedInstruction :
    (State.reset.raise (.stackOverflow 0x200)).halted = some (.stackOverflow 0x200) ∧
    (State.reset.halted = none ∧ (State.reset.setPC 0xFFF).PC.toNat + 1 > 0xFFF) ∧
    ((start 0x800F id).halted = none ∧ (start 0x800F id).PC.toNat + 1 ≤ 0xFFF ∧
      decodeWord (start 0x800F id).wordAtPC = .error (.unknownFamily8 0x800F)) ∧
    ((start 0x1234 (fun s => s.setPC 0xFFE)).halted = none ∧ (start 0x1234 (fun s => s.setPC 0xFFE)).PC.toNat + 1 ≤ 0xFFF ∧
      decodeWord (start 0x1234 (fun s => s.setPC 0xFFE)).wordAtPC = .ok (.jp 0x234)) := by decide

theorem witness_ErrorsArePrecise :
    (∃ t, (start 0x00EE id).halted = none ∧ step (start 0x00EE id) = .next t ∧ t.halted = some (.stackUnderflow 0x200)) ∧
    (∃ t, (State.reset.setPC 0xFFF).halted = none ∧ step (State.reset.setPC 0xFFF) = .next t ∧
      t.halted = some (.memoryOutOfRange 0x1000)) :=
  ⟨⟨_, rfl, rfl, by decide⟩, ⟨_, rfl, rfl, by decide⟩⟩

theorem witness_HaltedCoreStaysHalted :
    (State.reset.raise (.stackOverflow 0x200)).halted = some (.stackOverflow 0x200) ∧
    (List.replicate 3584 (0 : Byte)).length ≤ 3584 ∧
    Command.tickTimers ≠ .step ∧ ∀ bytes, Command.tickTimers ≠ .load bytes :=
  ⟨rfl, le_of_eq List.length_replicate, by decide, by intro b h; cases h⟩

theorem witness_PcAfterEachKindOfStep :
    (∃ t, step (State.reset.raise (.stackOverflow 0x200)) = .next t ∧
      (State.reset.raise (.stackOverflow 0x200)).halted = some (.stackOverflow 0x200)) ∧
    (∃ t, step (State.reset.setPC 0xFFF) = .next t ∧ (State.reset.setPC 0xFFF).halted = none ∧
      (State.reset.setPC 0xFFF).PC.toNat + 1 > 0xFFF) ∧
    (∃ t, step (start 0x00EE id) = .next t ∧ (start 0x00EE id).halted = none ∧
      (start 0x00EE id).PC.toNat + 1 ≤ 0xFFF ∧ t.halted ≠ none) ∧
    (∃ t, step (start 0x3000 id) = .next t ∧ (start 0x3000 id).AtInstr (.seImm 0 0) ∧ t.halted = none) :=
  ⟨⟨_, rfl, rfl⟩, ⟨_, rfl, rfl, by decide⟩, ⟨_, rfl, rfl, by decide, by decide⟩,
    ⟨_, rfl, ⟨rfl, by decide, by decide⟩, by decide⟩⟩

theorem witness_StepKeepsTheInvariant : (start 0xF055 id).Inv ∧ ∃ t, step (start 0xF055 id) = .next t :=
  ⟨by decide, _, rfl⟩

theorem witness_EveryScheduleKeepsTheInvariant :
    State.reset.Inv ∧ ∃ p, runSchedule [.tickTimers, .setKey 3 true, .step] State.reset = .next p :=
  ⟨by decide, _, rfl⟩

theorem witness_WhichInstructionsWriteWhat :
    (∃ t, exec (.call 0x300) State.reset = .next t ∧ t.stack ≠ State.reset.stack ∧ t.SP ≠ State.reset.SP) ∧
    (∃ t, exec (.ldDtVx 0) (withV [(0, 5)] State.reset) = .next t ∧ t.DT ≠ State.reset.DT) ∧
    (∃ t, exec (.ldStVx 0) (withV [(0, 5)] State.reset) = .next t ∧ t.ST ≠ State.reset.ST) ∧
    (∃ t, exec .cls (State.reset.setFB (State.reset.FB.flip 0 0)) = .next t ∧ t.FB ≠ State.reset.FB.flip 0 0) ∧
    (∃ t, exec (.storeRegs 0) (withV [(0, 5)] State.reset) = .next t ∧ t.mem ≠ State.reset.mem) ∧
    (∃ t, exec (.ldI 0xFFF) State.reset = .next t ∧ t.I ≠ State.reset.I) ∧
    (∃ t, exec (.rnd 0 0) State.reset = .next t ∧ t.drawIndex ≠ State.reset.drawIndex) ∧
    (∃ t, exec (.loadRegs 15) (withV [(0, 5)] State.reset) = .next t ∧ t.V ≠ (withV [(0, 5)] State.reset).V) ∧
    (∃ t, exec (.ldVxK 0) State.reset = .next t ∧ t.PC ≠ State.reset.PC) ∧
    (∃ t, exec (.sys 0) State.reset = .next t ∧ t.halted ≠ State.reset.halted) := by
  refine ⟨⟨_, rfl, ?_, ?_⟩, ⟨_, rfl, ?_⟩, ⟨_, rfl, ?_⟩, ⟨_, rfl, fun h => ?_⟩, ⟨_, rfl, ?_⟩, ⟨_, rfl, ?_⟩, ⟨_, rfl, ?_⟩,
    ⟨_, rfl, ?_⟩, ⟨_, rfl, ?_⟩, ⟨_, rfl, ?_⟩⟩
  · decide
  · decide
  · decide
  · decide
  · have := congrArg (fun fb => Framebuffer.pixel fb 0 0) h
    revert this; decide
  · decide
  · decide
  · decide
  · decide
  · decide
  · decide

theorem witness_RegistersChangeOnlyAsDestinationOrFlag :
    (∃ t, exec (.addReg 1 2) (withV [(1, 0x80), (2, 0x80)] State.reset) = .next t ∧
      t.V[vf] ≠ (withV [(1, 0x80), (2, 0x80)] State.reset).V[vf] ∧ t.V[(1 : RegIdx)] ≠ 0x80) ∧
    (∃ t, exec (.drw 0 1 15) State.reset = .next t ∧ writesFlag (.drw 0 1 15) = true ∧
      t.halted = State.reset.halted ∧ State.reset.halted = none) :=
  ⟨⟨_, rfl, by decide, by decide⟩, ⟨_, rfl, rfl, rfl, rfl⟩⟩

theorem witness_SysFollowsItsPolicy :
    State.reset.advance.PC = 0x200 + 2 ∧ ((0x123 : Addr12) ≠ 0x0E0 ∧ (0x123 : Addr12) ≠ 0x0EE) ∧
    State.reset.advance.cfg.sysPolicy = .fault ∧
    ({ State.reset.advance with cfg := { Config.default with sysPolicy := .nop } } : State).cfg.sysPolicy = .nop := by decide

theorem witness_RetPopsTheReturnAddress :
    State.reset.advance.PC = 0x200 + 2 ∧ State.reset.advance.SP = 0 ∧
    ({ State.reset.advance with SP := 1 } : State).SP.val = (0 : Fin 16).val + 1 ∧
    ({ State.reset.advance with SP := 16 } : State).SP.val = (15 : Fin 16).val + 1 := by decide

theorem witness_CallPushesTheReturnAddress :
    State.reset.advance.PC = 0x200 + 2 ∧ ({ State.reset.advance with SP := 16 } : State).SP = 16 ∧
    State.reset.advance.SP.val = (0 : Fin 16).val ∧
    ({ State.reset.advance with SP := 15 } : State).SP.val = (15 : Fin 16).val := by decide

theorem witness_ReturnUndoesCall :
    ({ State.reset with SP := 15 } : State).SP.val < 16 ∧
    ∃ t, exec (.call 0x300) { State.reset with SP := 15 } = .next t :=
  ⟨by decide, _, rfl⟩

theorem witness_SixteenNestedCallsSucceed :
    State.reset.SP = 0 ∧ (List.replicate 16 (0x200 : Addr12)).length = 16 ∧
    ∃ t, execSeq ((List.replicate 16 (0x200 : Addr12)).map Instr.call) State.reset = .next t ∧ t.PC = 0x1FE + 2 :=
  ⟨rfl, rfl, _, rfl, by decide⟩

theorem witness_LogicOperations :
    Instr.xor 1 2 = .xor 1 2 ∧ State.reset.cfg.logicResetsVf = false ∧ ((1 : RegIdx) ≠ vf ∨ State.reset.cfg.logicResetsVf = false) ∧
    ({ State.reset with cfg := { Config.default with logicResetsVf := true } } : State).cfg.logicResetsVf = true := by decide

theorem witness_ShiftsCaptureTheBitShiftedOut :
    State.reset.cfg.shiftSource = .vx ∧
    ({ State.reset with cfg := { Config.default with shiftSource := .vy } } : State).cfg.shiftSource = .vy := by decide

theorem witness_BlendFlipsExactlyTheCoveredPixels :
    63 < 64 ∧ 31 < 32 ∧ (List.replicate 15 (0xFF : Byte)).length ≤ 15 ∧
    SpriteCovers .clip 63 31 1 (fun _ => 0x80) 31 63 ∧ SpriteCovers .wrap 63 31 2 (fun _ => 0xFF) 0 0 :=
  ⟨by decide, by decide, by decide, ⟨0, 0, by decide, by decide, by decide, by decide⟩,
    ⟨1, 1, by decide, by decide, by decide, by decide⟩⟩

theorem witness_DrwDrawsTheSpriteAtI :
    ((0 : Fin 16).val = 0 ∨ (State.reset.setI 0xFFFF).I.toNat + (0 : Fin 16).val - 1 ≤ 0xFFF) ∧
    ((15 : Fin 16).val = 0 ∨ (State.reset.setI 0xFF1).I.toNat + (15 : Fin 16).val - 1 ≤ 0xFFF) ∧
    ((15 : Fin 16).val ≠ 0 ∧ (State.reset.setI 0xFF2).I.toNat + (15 : Fin 16).val - 1 > 0xFFF) := by decide

theorem witness_DrawingTwiceErases :
    ∃ t u, exec (.drw 0 1 1) (sprite [0x80] 62 31 State.reset) = .next t ∧
      t.V[(0 : RegIdx)] = (sprite [0x80] 62 31 State.reset).V[(0 : RegIdx)] ∧
      t.V[(1 : RegIdx)] = (sprite [0x80] 62 31 State.reset).V[(1 : RegIdx)] ∧ exec (.drw 0 1 1) t = .next u :=
  ⟨_, _, rfl, by decide, by decide, rfl⟩

theorem witness_AddToIndexSetsOverflow :
    State.reset.cfg.addiOverflowLimit = .addressSpace ∧
    ({ State.reset with cfg := { Config.default with addiOverflowLimit := .indexWidth } } : State).cfg.addiOverflowLimit =
      .indexWidth := by decide

theorem witness_LoadFontAddress :
    State.reset.cfg.fontDigitPolicy = .mask ∧
    ({ State.reset with cfg := { Config.default with fontDigitPolicy := .unmasked } } : State).cfg.fontDigitPolicy =
      .unmasked := by decide

theorem witness_StoreBcdDigits :
    (State.reset.setI 0xFFD).I.toNat + 2 ≤ 0xFFF ∧ (State.reset.setI 0xFFE).I.toNat + 2 > 0xFFF := by decide

theorem witness_StoreRegisterBlock :
    (State.reset.setI 0xFF0).I.toNat + (15 : RegIdx).val ≤ 0xFFF ∧
    (State.reset.setI 0xFF1).I.toNat + (15 : RegIdx).val > 0xFFF ∧ (15 : RegIdx) ≤ 15 := by decide

theorem witness_LoadRegisterBlock :
    (State.reset.setI 0xFFF).I.toNat + (0 : RegIdx).val ≤ 0xFFF ∧
    (State.reset.setI 0x1000).I.toNat + (0 : RegIdx).val > 0xFFF := by decide

theorem witness_LoadUndoesStore :
    (State.reset.setI 0xFF0).I.toNat + (15 : RegIdx).val ≤ 0xFFF ∧
    ∃ t, exec (.storeRegs 15) (State.reset.setI 0xFF0) = .next t :=
  ⟨by decide, _, rfl⟩

theorem witness_StoredBytesAreFetched :
    (State.reset.setI 0xFF0).I.toNat + (15 : RegIdx).val ≤ 0xFFF ∧ (15 : RegIdx).val = (14 : RegIdx).val + 1 ∧
    (15 : RegIdx) ≤ 15 ∧ ∃ t, exec (.storeRegs 15) (State.reset.setI 0xFF0) = .next t :=
  ⟨by decide, by decide, by decide, _, rfl⟩

theorem witness_MemoryReadsAndWrites :
    [(1 : Byte), 2] ≠ [] ∧ 0xFFE + [(1 : Byte), 2].length - 1 ≤ 0xFFF ∧ 0xFFF + [(1 : Byte), 2].length - 1 > 0xFFF := by decide

theorem witness_SkipsOnAKey :
    ((withV [(1, 15)] State.reset).V[(1 : RegIdx)]).toNat = (15 : KeyIdx).val ∧
    ((withV [(1, 16)] State.reset).V[(1 : RegIdx)]).toNat > 0xF := by decide

theorem witness_KeyWaitTakesTheLowestKey :
    State.reset.advance.PC = 0x200 + 2 ∧
    ((State.reset.advance.setKeyBit 15 true).keys[(15 : KeyIdx)] = true ∧
      ∀ j : KeyIdx, j < 15 → (State.reset.advance.setKeyBit 15 true).keys[j] = false) ∧
    ∀ k : KeyIdx, State.reset.advance.keys[k] = false := by decide

theorem witness_LoadResetsOrChangesNothing :
    (List.replicate 3584 (0 : Byte)).length ≤ 3584 ∧ (List.replicate 3585 (0 : Byte)).length > 3584 :=
  ⟨le_of_eq List.length_replicate, lt_of_lt_of_eq (Nat.lt_succ_self 3584) List.length_replicate.symm⟩

theorem witness_SetKeyWritesTheLatch :
    ((0 : Int) = (0 : KeyIdx).val ∧ (15 : Int) = (15 : KeyIdx).val) ∧ (-1 : Int) < 0 ∧ (16 : Int) > 15 := by decide

theorem witness_TicksCommuteWithSteps :
    (∀ x, ¬ (start 0x6A42 id).AtInstr (.ldVxDt x) ∧ ¬ (start 0x6A42 id).AtInstr (.ldDtVx x) ∧
      ¬ (start 0x6A42 id).AtInstr (.ldStVx x)) ∧ ∃ t, step (start 0x6A42 id) = .next t := by
  have h : decodeWord (start 0x6A42 id).wordAtPC = .ok (.ldImm 10 0x42) := by decide
  refine ⟨fun x => ⟨fun a => ?_, fun a => ?_, fun a => ?_⟩, _, rfl⟩ <;> have b := a.2.2 <;> rw [h] at b <;> cases b

theorem witness_KeysAreSeenOnlyByKeyInstructions :
    (∀ x, ¬ (start 0x6A42 id).AtInstr (.skp x) ∧ ¬ (start 0x6A42 id).AtInstr (.sknp x) ∧
      ¬ (start 0x6A42 id).AtInstr (.ldVxK x)) ∧ ∃ t, step (start 0x6A42 id) = .next t := by
  have h : decodeWord (start 0x6A42 id).wordAtPC = .ok (.ldImm 10 0x42) := by decide
  refine ⟨fun x => ⟨fun a => ?_, fun a => ?_, fun a => ?_⟩, _, rfl⟩ <;> have b := a.2.2 <;> rw [h] at b <;> cases b

theorem witness_WaitingEndsOnlyWithAKeyOrALoad :
    (start 0xF30A id).Waiting ∧ (start 0xF30A id).AtInstr (.ldVxK 3) ∧
    (∀ c ∈ [Command.setKey 15 false, .setKey 16 true, .setKey (-1) true, .tickTimers, .isSoundActive],
      (∀ bytes, c ≠ .load bytes) ∧ ∀ k : KeyIdx, c ≠ .setKey k.val true) ∧
    ∀ bytes, bytes.length ≤ 3584 → Command.load (List.replicate 3585 0) ≠ .load bytes := by
  refine ⟨⟨⟨3, rfl, by decide, by decide⟩, by decide⟩, ⟨rfl, by decide, by decide⟩, fun c hc => ?_, fun bytes hb h => ?_⟩
  · fin_cases hc <;> exact ⟨by rintro _ ⟨⟩, by decide⟩
  · rw [← Command.load.inj h, List.length_replicate] at hb
    exact absurd hb (by decide)

theorem witness_SpinKeepsTheState : (start 0x1200 id).Spinning :=
  ⟨0x200, ⟨rfl, by decide, by decide⟩, by decide⟩

theorem witness_PlacedWordIsFetched :
    65535 < 65536 ∧ State.reset.halted = none ∧ (State.reset.setPC 0xFFE).PC.toNat ≤ 0xFFE := by decide

end Sys2Proof.Tests
end

section
/-! SUPPORT. The two ways an instruction ends: it raises an error of R100, or it completes. `exec_next_iff` says that `exec`
answers exactly the next states of these two relations, so that later proofs take a run apart without unfolding a meaning. -/

namespace Sys2Proof.Machine

@[simp] theorem State.fetchAddr_advance (s : State) : s.advance.fetchAddr = s.PC := by
  unfold State.fetchAddr
  rw [State.advance_PC, BitVec.add_sub_cancel]

/-- `i`, run from `s`, raises `e`: the instructions with a check of their own (R103), and SYS under SYS_POLICY = fault. -/
def Raises (i : Instr) (s : State) (e : ErrorRecord) : Prop :=
  match i with
  | .sys nnn => s.cfg.sysPolicy = .fault ∧ e = .unknownInstruction (zext16 nnn) s.fetchAddr
  | .ret => s.SP = 0 ∧ e = .stackUnderflow s.fetchAddr
  | .call _ => s.SP = 16 ∧ e = .stackOverflow s.fetchAddr
  | .drw _ _ n => n ≠ 0 ∧ 0x1000 < s.I.toNat + n.val ∧ e = .memoryOutOfRange (max s.I.toNat 0x1000)
  | .skp x | .sknp x => 0xF < s.V[x].toNat ∧ e = .invalidKeyIndex s.V[x].toNat
  | .ldB _ => 0xFFF < s.I.toNat + 2 ∧ e = .memoryOutOfRange (max s.I.toNat 0x1000)
  | .storeRegs x | .loadRegs x =>
    0xFFF < s.I.toNat + x.val ∧ e = .memoryOutOfRange (max s.I.toNat 0x1000)
  | _ => False

/-- `i`, run from `s`, completes in `t`. An instruction whose meaning has no branch completes as that meaning says. -/
def Completes (i : Instr) (s t : State) : Prop :=
  match i with
  | .sys _ => s.cfg.sysPolicy = .nop ∧ t = s
  | .ret => ∃ h : 0 < s.SP.val,
      t = { s with SP := ⟨s.SP.val - 1, by omega⟩, PC := s.stack[s.SP.val - 1]'(by have := s.SP.isLt; omega) }
  | .call nnn => ∃ h : s.SP.val < 16,
      t = { s with stack := s.stack.set s.SP.val s.PC, SP := ⟨s.SP.val + 1, by omega⟩, PC := zext16 nnn }
  | .drw x y n => ∃ rows b, s.spriteRows n = .ok rows ∧
      b = blendSprite s.cfg.drawEdge s.FB ((s.reg x).toNat % 64) ((s.reg y).toNat % 32) rows ∧
      t = (s.setFB b.1).setV vf (flagByte b.2)
  | .skp x => ∃ k : KeyIdx, k.val = s.V[x].toNat ∧ t = s.skipIf s.keys[k]
  | .sknp x => ∃ k : KeyIdx, k.val = s.V[x].toNat ∧ t = s.skipIf (!s.keys[k])
  | .ldVxK x => (lowestPressed s.keys = none ∧ t = s.setPC s.fetchAddr) ∨
      ∃ k, lowestPressed s.keys = some k ∧ t = s.setV x (BitVec.ofNat 8 k.val)
  | .ldB x => s.I.toNat + 2 ≤ 0xFFF ∧ t = s.setMem (s.mem.writeBytes s.I.toNat (bcdDigits s.V[x]))
  | .storeRegs x => s.I.toNat + x.val ≤ 0xFFF ∧
      t = (s.setMem (s.mem.writeBytes s.I.toNat (s.regBlock x))).moveIndex x
  | .loadRegs x => s.I.toNat + x.val ≤ 0xFFF ∧
      t = (s.setRegs (loadBlock s.V 0 (s.mem.readBytes s.I.toNat (x.val + 1)))).moveIndex x
  | i => exec i s = .next t

/-! ### The shared operations, from the condition that decides them -/

theorem State.pred_SP_lt (s : State) : s.SP.val - 1 < 16 := by
  have hlt := s.SP.isLt
  omega

theorem State.pop_eq_none {s : State} (h : s.SP = 0) : s.pop = none := by
  rcases s.pop_cases with ⟨-, hp⟩ | ⟨hlt, -⟩
  · exact hp
  · simp [h] at hlt

theorem State.push_eq_none {s : State} (h : s.SP = 16) (w : Word) : s.push w = none := by
  rcases s.push_cases w with ⟨-, hp⟩ | ⟨hlt, -⟩
  · exact hp
  · simp [h] at hlt

theorem State.keyOperand_eq_none {s : State} {x : RegIdx} (h : 0xF < s.V[x].toNat) : s.keyOperand x = none := by
  rcases s.keyOperand_cases x with ⟨-, hk⟩ | ⟨hlt, -⟩
  · exact hk
  · omega

theorem State.keyOperand_eq_some {s : State} {x : RegIdx} {k : KeyIdx} (h : k.val = s.V[x].toNat) :
    s.keyOperand x = some k := by
  rcases s.keyOperand_cases x with ⟨hlt, -⟩ | ⟨_, hk⟩
  · omega
  · rw [hk, Option.some_inj]; exact Fin.ext h.symm

theorem memRead_eq_error {m : Memory} {addr n : Nat} (h : 0xFFF < addr + n - 1) :
    memRead m addr n = .error (.memoryOutOfRange (max addr 0x1000)) := by
  rcases memRead_cases m addr n with ⟨-, hr⟩ | ⟨hle, -⟩
  · exact hr
  · omega

theorem memRead_eq_ok {m : Memory} {addr n : Nat} (h : addr + n - 1 ≤ 0xFFF) :
    memRead m addr n = .ok (m.readBytes addr n) := by
  rcases memRead_cases m addr n with ⟨hlt, -⟩ | ⟨-, hr⟩
  · omega
  · exact hr

theorem memWrite_eq_error {m : Memory} {addr : Nat} {bs : List Byte} (h : 0xFFF < addr + bs.length - 1) :
    memWrite m addr bs = .error (.memoryOutOfRange (max addr 0x1000)) := by
  rcases memWrite_cases m addr bs with ⟨-, hw⟩ | ⟨hle, -⟩
  · exact hw
  · omega

theorem memWrite_eq_ok {m : Memory} {addr : Nat} {bs : List Byte} (h : addr + bs.length - 1 ≤ 0xFFF) :
    memWrite m addr bs = .ok (m.writeBytes addr bs) := by
  rcases memWrite_cases m addr bs with ⟨hlt, -⟩ | ⟨-, hw⟩
  · omega
  · exact hw

@[simp] theorem bcdDigits_length (b : Byte) : (bcdDigits b).length = 3 := rfl

/-! ### `exec` is these two relations -/

theorem exec_of_raises {i : Instr} {s : State} {e : ErrorRecord} (h : Raises i s e) : exec i s = .next (s.raise e) := by
  cases i
  case sys =>
    obtain ⟨hp, rfl⟩ := h
    simp only [exec, execSys, hp, raise]
  case ret =>
    obtain ⟨hs, rfl⟩ := h
    simp only [exec, execRet, State.pop_eq_none hs, raise]
  case call =>
    obtain ⟨hs, rfl⟩ := h
    simp only [exec, execCall, State.push_eq_none hs, raise]
  case drw x y n =>
    obtain ⟨hn, hlt, rfl⟩ := h
    rcases s.spriteRows_cases n with ⟨h0, -⟩ | ⟨-, -, hr⟩ | ⟨-, hle, -⟩
    · exact absurd h0 hn
    · simp only [exec, execDrw, hr, raise]
    · omega
  case skp =>
    obtain ⟨hv, rfl⟩ := h
    simp only [exec, execSkp, State.keyOperand_eq_none hv, raise]; rfl
  case sknp =>
    obtain ⟨hv, rfl⟩ := h
    simp only [exec, execSknp, State.keyOperand_eq_none hv, raise]; rfl
  case ldB =>
    obtain ⟨hr, rfl⟩ := h
    simp only [exec, execLdB, State.base, memWrite_eq_error (bs := bcdDigits _) hr, raise]
  case storeRegs x =>
    obtain ⟨hr, rfl⟩ := h
    simp only [exec, execStoreRegs, State.base, memWrite_eq_error (bs := s.regBlock x) (by simpa using hr), raise]
  case loadRegs x =>
    obtain ⟨hr, rfl⟩ := h
    simp only [exec, execLoadRegs, State.base, memRead_eq_error (n := x.val + 1) hr, raise]
  all_goals exact h.elim

theorem exec_of_completes {i : Instr} {s t : State} (h : Completes i s t) : exec i s = .next t := by
  cases i
  case sys =>
    obtain ⟨hp, rfl⟩ := h
    simp only [exec, execSys, hp]
  case ret =>
    obtain ⟨hs, rfl⟩ := h
    rcases s.pop_cases with ⟨h0, -⟩ | ⟨_, hp⟩
    · simp [h0] at hs
    · simp only [exec, execRet, hp, State.setPC]
  case call =>
    obtain ⟨hs, rfl⟩ := h
    rcases s.push_cases s.PC with ⟨h16, -⟩ | ⟨_, hp⟩
    · simp [h16] at hs
    · simp only [exec, execCall, hp, State.setPC]
  case drw =>
    obtain ⟨rows, b, hr, rfl, rfl⟩ := h
    simp only [exec, execDrw, hr]
  case skp =>
    obtain ⟨k, hk, rfl⟩ := h
    simp only [exec, execSkp, State.keyOperand_eq_some hk]
  case sknp =>
    obtain ⟨k, hk, rfl⟩ := h
    simp only [exec, execSknp, State.keyOperand_eq_some hk]
  case ldVxK =>
    obtain ⟨hk, rfl⟩ | ⟨k, hk, rfl⟩ := h <;> simp only [exec, execLdVxK, hk]
  case ldB x =>
    obtain ⟨hr, rfl⟩ := h
    simp only [exec, execLdB, State.base, State.reg, memWrite_eq_ok (bs := bcdDigits s.V[x]) hr]
  case storeRegs x =>
    obtain ⟨hr, rfl⟩ := h
    simp only [exec, execStoreRegs, State.base, memWrite_eq_ok (bs := s.regBlock x) (by simpa using hr)]
  case loadRegs x =>
    obtain ⟨hr, rfl⟩ := h
    simp only [exec, execLoadRegs, State.base, memRead_eq_ok (n := x.val + 1) hr]
  all_goals exact h

theorem raises_or_completes (i : Instr) (s : State) : (∃ e, Raises i s e) ∨ ∃ t, Completes i s t := by
  cases i
  case sys =>
    cases hp : s.cfg.sysPolicy
    · exact .inl ⟨_, hp, rfl⟩
    · exact .inr ⟨_, hp, rfl⟩
  case ret =>
    rcases s.pop_cases with ⟨hs, -⟩ | ⟨hs, -⟩
    · exact .inl ⟨_, hs, rfl⟩
    · exact .inr ⟨_, hs, rfl⟩
  case call =>
    rcases s.push_cases s.PC with ⟨hs, -⟩ | ⟨hs, -⟩
    · exact .inl ⟨_, hs, rfl⟩
    · exact .inr ⟨_, hs, rfl⟩
  case drw x y n =>
    rcases s.spriteRows_cases n with ⟨-, hr⟩ | ⟨hn, hlt, -⟩ | ⟨-, -, hr⟩
    · exact .inr ⟨_, _, _, hr, rfl, rfl⟩
    · exact .inl ⟨_, hn, hlt, rfl⟩
    · exact .inr ⟨_, _, _, hr, rfl, rfl⟩
  case skp x | sknp x =>
    rcases s.keyOperand_cases x with ⟨hv, -⟩ | ⟨hv, -⟩
    · exact .inl ⟨_, hv, rfl⟩
    · exact .inr ⟨_, ⟨_, hv⟩, rfl, rfl⟩
  case ldVxK =>
    cases hk : lowestPressed s.keys
    · exact .inr ⟨_, .inl ⟨hk, rfl⟩⟩
    · exact .inr ⟨_, .inr ⟨_, hk, rfl⟩⟩
  case ldB =>
    rcases Nat.lt_or_ge 0xFFF (s.I.toNat + 2) with hr | hr
    · exact .inl ⟨_, hr, rfl⟩
    · exact .inr ⟨_, hr, rfl⟩
  case storeRegs x | loadRegs x =>
    rcases Nat.lt_or_ge 0xFFF (s.I.toNat + x.val) with hr | hr
    · exact .inl ⟨_, hr, rfl⟩
    · exact .inr ⟨_, hr, rfl⟩
  all_goals exact .inr ⟨_, rfl⟩

/-- Everything `exec` can do: complete, or raise an error that changes the halt status alone (R101). -/
theorem exec_next_iff {i : Instr} {s t : State} :
    exec i s = .next t ↔ Completes i s t ∨ ∃ e, Raises i s e ∧ t = s.raise e := by
  constructor
  · intro h
    rcases raises_or_completes i s with ⟨e, he⟩ | ⟨u, hu⟩
    · exact .inr ⟨e, he, Host.Outcome.next.inj (h.symm.trans (exec_of_raises he))⟩
    · exact .inl (Host.Outcome.next.inj (h.symm.trans (exec_of_completes hu)) ▸ hu)
  · rintro (h | ⟨e, he, rfl⟩)
    · exact exec_of_completes h
    · exact exec_of_raises he

end Sys2Proof.Machine
end

section
/-! SUPPORT. The step cycle (R49), from the condition that decides it. -/

namespace Sys2Proof.Machine

theorem step_of_halted {s : State} {e : ErrorRecord} (h : s.halted = some e) : step s = .next s := by
  simp [step, h]

theorem step_of_outOfRange {s : State} (hh : s.halted = none) (hr : 0xFFE < s.PC.toNat) :
    step s = .next (s.raise (.memoryOutOfRange (max s.PC.toNat 0x1000))) := by
  rcases fetchWord_cases s with ⟨-, hf⟩ | ⟨hle, -⟩
  · simp [step, hh, hf]
  · omega

theorem step_of_unknown {s : State} {d : DecodeReject} (hh : s.halted = none) (hr : s.PC.toNat ≤ 0xFFE)
    (hd : decodeWord s.wordAtPC = .error d) :
    step s = .next (s.advance.raise (.unknownInstruction s.wordAtPC s.PC)) := by
  rcases fetchWord_cases s with ⟨hlt, -⟩ | ⟨-, hf⟩
  · omega
  · simp [step, hh, hf, hd]

end Sys2Proof.Machine
end

section
/-! SUPPORT. Which fields an instruction can change (R13 to R32, R103). -/

namespace Sys2Proof.Machine

/-- Only the instructions of R103 raise an error, and SYS only under SYS_POLICY = fault. -/
theorem Raises.instr {i : Instr} {s : State} {e : ErrorRecord} (h : Raises i s e) :
    i = .ret ∨ (s.cfg.sysPolicy = .fault ∧ ∃ nnn, i = .sys nnn) ∨ (∃ nnn, i = .call nnn) ∨
      (∃ x y n, i = .drw x y n) ∨ ∃ x, i = .ldB x ∨ i = .storeRegs x ∨ i = .loadRegs x ∨ i = .skp x ∨ i = .sknp x := by
  cases i <;> simp_all [Raises]

theorem Completes.halted {i : Instr} {s t : State} (h : Completes i s t) : t.halted = s.halted := by
  cases i
  case sys | ret | call | ldB => obtain ⟨-, rfl⟩ := h; rfl
  case drw => obtain ⟨_, _, -, -, rfl⟩ := h; rfl
  case skp | sknp => obtain ⟨_, -, rfl⟩ := h; simp [State.skipIf_eq]
  case ldVxK => obtain ⟨-, rfl⟩ | ⟨_, -, rfl⟩ := h <;> rfl
  case storeRegs | loadRegs => obtain ⟨-, rfl⟩ := h; simp [State.moveIndex_eq]
  all_goals cases h; simp [State.skipIf_eq, State.setLogic_eq, State.setWithFlag_eq]

theorem mem_destRegs_loadRegs {x k : RegIdx} : k ∈ destRegs (.loadRegs x) ↔ k ≤ x := by
  simp [destRegs]

theorem destRegs_loadRegs_ne_nil (x : RegIdx) : destRegs (.loadRegs x) ≠ [] :=
  List.ne_nil_of_mem (mem_destRegs_loadRegs.mpr le_rfl)

/-- Settles O14: an error changes the halt status alone, and a completed run writes what its instruction names. -/
theorem whichInstructionsWriteWhat : Obligations.WhichInstructionsWriteWhat := by
  intro i s t h
  rcases exec_next_iff.mp h with hc | ⟨e, he, rfl⟩
  · cases i
    case sys | ret | call | ldB => obtain ⟨-, rfl⟩ := hc; simp
    case drw => obtain ⟨_, _, -, -, rfl⟩ := hc; simp [writesFlag]
    case skp | sknp => obtain ⟨_, -, rfl⟩ := hc; simp [State.skipIf_eq]
    case ldVxK => obtain ⟨-, rfl⟩ | ⟨_, -, rfl⟩ := hc <;> simp [destRegs]
    case storeRegs | loadRegs =>
      obtain ⟨-, rfl⟩ := hc
      cases hq : s.cfg.loadStoreIncrementsI <;> simp [State.moveIndex_eq, hq, destRegs_loadRegs_ne_nil]
    all_goals cases hc; simp [State.skipIf_eq, State.setLogic_eq, State.setWithFlag_eq, destRegs, writesFlag]
  · simpa using fun _ => he.instr

end Sys2Proof.Machine
end

section
/-! SUPPORT. V registers and the flag (R13, R14). -/

namespace Sys2Proof.Machine

theorem flagByte_eq_zero_or_one (c : Bool) : flagByte c = 0 ∨ flagByte c = 1 := by
  cases c
  · exact .inl rfl
  · exact .inr rfl

/-- A register that `setV` changes is the one it names. -/
theorem State.eq_of_setV_ne {s : State} {x k : RegIdx} {b : Byte} (h : (s.setV x b).V[k] ≠ s.V[k]) : k = x := by
  by_contra hk
  exact h (s.setV_getElem_ne b hk)

theorem State.eq_of_setWithFlag_ne {s : State} {x k : RegIdx} {r f : Byte}
    (h : (s.setWithFlag x r f).V[k] ≠ s.V[k]) : k = x ∨ k = vf := by
  by_contra hk
  obtain ⟨hx, hf⟩ := not_or.mp hk
  exact h (by rw [State.setWithFlag_getElem, if_neg (Ne.symm hf), if_neg (Ne.symm hx)])

theorem State.eq_of_setLogic_ne {s : State} {x k : RegIdx} {r : Byte} (h : (s.setLogic x r).V[k] ≠ s.V[k]) :
    k = x ∨ (k = vf ∧ s.cfg.logicResetsVf = true) := by
  by_contra hk
  obtain ⟨hx, hf⟩ := not_or.mp hk
  exact h (by rw [State.setLogic_getElem, if_neg fun ⟨hl, hv⟩ => hf ⟨hv.symm, hl⟩, if_neg (Ne.symm hx)])

theorem le_of_loadBlock_ne {v : Vector Byte 16} {x k : RegIdx} {bs : List Byte} (hl : bs.length = x.val + 1)
    (h : (loadBlock v 0 bs)[k] ≠ v[k]) : k ≤ x := by
  by_contra hk
  have hlt : x.val < k.val := not_le.mp hk
  rw [Fin.getElem_fin, loadBlock_getElem, dif_neg (by rw [hl]; omega)] at h
  exact h rfl

/-- The registers a run can change: the destinations of the instruction, and VF where it writes a flag. -/
theorem Completes.changed_reg {i : Instr} {s t : State} (h : Completes i s t) {k : RegIdx} (hk : t.V[k] ≠ s.V[k]) :
    k ∈ destRegs i ∨ (k = vf ∧ (writesFlag i = true ∨ (isLogic i = true ∧ s.cfg.logicResetsVf = true))) := by
  obtain ⟨-, -, hV, -⟩ := whichInstructionsWriteWhat i s t (exec_of_completes h)
  replace hV := hV fun heq => hk (by rw [heq])
  cases i
  case drw =>
    obtain ⟨_, _, -, -, rfl⟩ := h
    exact .inr ⟨State.eq_of_setV_ne hk, .inl rfl⟩
  case addI =>
    cases h
    exact .inr ⟨State.eq_of_setV_ne hk, .inl rfl⟩
  case ldVxK =>
    obtain ⟨-, rfl⟩ | ⟨_, -, rfl⟩ := h
    · exact absurd rfl hk
    · exact .inl (List.mem_singleton.mpr (State.eq_of_setV_ne hk))
  case loadRegs =>
    obtain ⟨-, rfl⟩ := h
    rw [State.moveIndex_eq] at hk
    exact .inl (mem_destRegs_loadRegs.mpr (le_of_loadBlock_ne (Memory.readBytes_length _ _ _) hk))
  case or | and | xor =>
    cases h
    exact (State.eq_of_setLogic_ne hk).imp List.mem_singleton.mpr fun ⟨hv, hl⟩ => ⟨hv, .inr ⟨rfl, hl⟩⟩
  case addReg | sub | shr | subn | shl =>
    cases h
    exact (State.eq_of_setWithFlag_ne hk).imp List.mem_singleton.mpr fun hv => ⟨hv, .inl rfl⟩
  case ldImm | addImm | ldReg | ldVxDt | rnd =>
    cases h
    exact .inl (List.mem_singleton.mpr (State.eq_of_setV_ne hk))
  all_goals simp [destRegs, writesFlag] at hV

theorem Completes.flag_zero_or_one {i : Instr} {s t : State} (h : Completes i s t) (hf : writesFlag i = true) :
    t.V[vf] = 0 ∨ t.V[vf] = 1 := by
  cases i
  case drw =>
    obtain ⟨_, _, -, -, rfl⟩ := h
    rw [State.setV_getElem_self]
    exact flagByte_eq_zero_or_one _
  case addI =>
    cases h
    rw [State.setV_getElem_self]
    exact flagByte_eq_zero_or_one _
  case addReg | sub | shr | subn | shl =>
    cases h
    rw [State.setWithFlag_getElem, if_pos rfl]
    exact flagByte_eq_zero_or_one _
  all_goals simp [writesFlag] at hf

/-- Settles O15: an error changes no register, so only a completed run can. -/
theorem registersChangeOnlyAsDestinationOrFlag : Obligations.RegistersChangeOnlyAsDestinationOrFlag := by
  intro i s t h
  rcases exec_next_iff.mp h with hc | ⟨e, -, rfl⟩
  · exact ⟨fun _ hk => hc.changed_reg hk, fun hf _ _ => hc.flag_zero_or_one hf⟩
  · exact ⟨fun _ hk => absurd rfl hk, fun _ hh hn => by simp [hn] at hh⟩

end Sys2Proof.Machine
end

section
/-! SUPPORT. PC after each kind of step (R17). -/

namespace Sys2Proof.Machine

/-- PC after a skip of the step cycle: one word on, or two. -/
theorem State.skipIf_advance_PC (s : State) (c : Bool) :
    (s.advance.skipIf c).PC = if c then s.PC + 4 else s.PC + 2 := by
  cases c
  · rfl
  · show s.PC + 2 + 2 = s.PC + 4
    bv_omega

theorem State.keys_getElem? (s : State) (k : KeyIdx) : s.keys[k.val]? = some s.keys[k] :=
  Vector.getElem?_eq_getElem k.isLt

/-- A completed run of the instruction fetched at `s.PC` leaves PC as the table of R17 says. -/
theorem Completes.pc_eq {i : Instr} {s t : State} (h : Completes i s.advance t) : t.PC = pcAfter i s := by
  cases i
  case sys | call | ldB => obtain ⟨-, rfl⟩ := h; rfl
  case ret => obtain ⟨-, rfl⟩ := h; simp [pcAfter, s.pred_SP_lt]
  case drw => obtain ⟨_, _, -, -, rfl⟩ := h; rfl
  case skp | sknp =>
    obtain ⟨k, hk, rfl⟩ := h
    rw [State.advance_V] at hk
    rw [State.skipIf_advance_PC, pcAfter, ← hk, State.keys_getElem?, State.advance_keys]
    cases s.keys[k] <;> rfl
  case ldVxK =>
    rcases lowestPressed_cases s.keys with ⟨hall, hn⟩ | ⟨k, hp, -, hn⟩
    · obtain ⟨-, rfl⟩ | ⟨_, hk, -⟩ := h
      · simp [pcAfter, hall]
      · simp [hn] at hk
    · obtain ⟨hk, -⟩ | ⟨_, -, rfl⟩ := h
      · simp [hn] at hk
      · exact (if_neg fun hall => by simp [hall k] at hp).symm
  case storeRegs | loadRegs => obtain ⟨-, rfl⟩ := h; simp [State.moveIndex_eq, pcAfter]
  case seImm | sneImm | seReg | sneReg =>
    cases h
    rw [State.skipIf_advance_PC]
    simp only [decide_eq_true_eq, ne_eq, ite_not]
    rfl
  all_goals
    cases h
    simp [State.setLogic_eq, State.setWithFlag_eq, pcAfter, State.reg, zext16, zextByte]

theorem State.AtInstr.instr_eq {s : State} {i j : Instr} (hi : s.AtInstr i) (hj : s.AtInstr j) : i = j := by
  obtain ⟨-, -, hdi⟩ := hi
  obtain ⟨-, -, hdj⟩ := hj
  exact Except.ok.inj (hdi.symm.trans hdj)

/-- Settles O10, along the cases of the step cycle. -/
theorem pcAfterEachKindOfStep : Obligations.PcAfterEachKindOfStep := by
  intro s t h
  rcases step_cases s with ⟨e, hh, hs⟩ | ⟨hh, hr, hs⟩ | ⟨hh, hr, ⟨e, hd⟩, hs⟩ | ⟨i, hi, hs⟩
  · cases hs.symm.trans h
    simp [hh]
  · cases hs.symm.trans h
    exact ⟨by simp [hh], fun _ _ => rfl, fun _ hle => by omega, fun _ ⟨_, hle, _⟩ => by omega⟩
  · cases hs.symm.trans h
    exact ⟨by simp [hh], fun _ hgt => by omega, fun _ _ _ => rfl, fun _ _ hn => by simp at hn⟩
  · have ⟨hh, hr, _⟩ := hi
    rcases exec_next_iff.mp (hs.symm.trans h) with hc | ⟨e, -, rfl⟩
    · have ht : t.halted = none := hc.halted.trans hh
      refine ⟨by simp [hh], by omega, by simp [ht], fun j hj _ => ?_⟩
      rw [hj.instr_eq hi]
      exact hc.pc_eq
    · exact ⟨by simp [hh], fun _ hgt => by omega, fun _ _ _ => rfl, fun _ _ hn => by simp at hn⟩

end Sys2Proof.Machine
end

section
/-! SUPPORT. The invariant, part by part, and every step keeps it. -/

namespace Sys2Proof.Machine

/-- An instruction raises only legal records, fetched at an address in range. -/
theorem Raises.legalHalt {i : Instr} {s : State} {e : ErrorRecord} (h : Raises i s e) (ha : s.fetchAddr.toNat ≤ 0xFFE) :
    e.legalHalt = true := by
  cases i
  case sys | ret | call => obtain ⟨-, rfl⟩ := h; simpa [ErrorRecord.legalHalt] using ha
  case drw => obtain ⟨-, -, rfl⟩ := h; simp [ErrorRecord.legalHalt]
  case skp x | sknp x =>
    obtain ⟨hv, rfl⟩ := h
    have hlt := s.V[x].isLt
    simp only [ErrorRecord.legalHalt, decide_eq_true_eq]
    omega
  case ldB | storeRegs | loadRegs => obtain ⟨-, rfl⟩ := h; simp [ErrorRecord.legalHalt]
  all_goals exact h.elim

theorem exec_mem_wf {i : Instr} {s t : State} (h : exec i s = .next t) (hm : s.mem.wf) : t.mem.wf := by
  by_cases heq : t.mem = s.mem
  · rwa [heq]
  obtain ⟨-, -, -, -, -, -, -, -, -, -, hmem, -⟩ := whichInstructionsWriteWhat i s t h
  rcases exec_next_iff.mp h with hc | ⟨e, -, rfl⟩
  · obtain ⟨x, rfl | rfl⟩ := hmem heq
    · obtain ⟨hr, rfl⟩ := hc
      exact Memory.writeBytes_wf hm _ (by simp only [bcdDigits_length, memSize]; omega)
    · obtain ⟨hr, rfl⟩ := hc
      rw [State.moveIndex_eq]
      exact Memory.writeBytes_wf hm _ (by simp only [State.regBlock_length, memSize]; omega)
  · exact absurd rfl heq

theorem pcAfter_toNat_le {s : State} (i : Instr) (hpc : s.PC.toNat ≤ 0xFFE)
    (hstack : ∀ k : Fin 16, s.stack[k].toNat ≤ 0x1000) : (pcAfter i s).toNat ≤ 0x10FE := by
  have h0 : s.PC.toNat ≤ 0x10FE := by omega
  have h2 : (s.PC + 2).toNat ≤ 0x10FE := by bv_omega
  have h4 : (s.PC + 4).toNat ≤ 0x10FE := by bv_omega
  have hnnn (nnn : Addr12) : (nnn.setWidth 16).toNat = nnn.toNat := by
    rw [BitVec.toNat_setWidth]; omega
  cases i
  case jp nnn | call nnn =>
    rw [pcAfter, hnnn]; omega
  case jpV0 nnn =>
    rw [pcAfter, BitVec.toNat_add, hnnn, BitVec.toNat_setWidth]
    omega
  case ret =>
    rw [pcAfter, Vector.getElem?_eq_getElem s.pred_SP_lt, Option.getD_some]
    exact (hstack ⟨s.SP.val - 1, s.pred_SP_lt⟩).trans (by decide)
  case seImm | sneImm | seReg | sneReg | skp | sknp | ldVxK =>
    rw [pcAfter]; split <;> assumption
  all_goals exact h2

theorem exec_stack_le {i : Instr} {s t : State} (h : exec i s = .next t) (hpc : s.PC.toNat ≤ 0x1000)
    (hstack : ∀ k : Fin 16, s.stack[k].toNat ≤ 0x1000) (k : Fin 16) : t.stack[k].toNat ≤ 0x1000 := by
  by_cases heq : t.stack = s.stack
  · rw [heq]; exact hstack k
  obtain ⟨-, -, -, -, -, hcall, -⟩ := whichInstructionsWriteWhat i s t h
  obtain ⟨nnn, rfl⟩ := hcall heq
  rcases exec_next_iff.mp h with ⟨hs, rfl⟩ | ⟨e, -, rfl⟩
  · simp only [Fin.getElem_fin, Vector.getElem_set]
    split
    · exact hpc
    · exact hstack k
  · exact absurd rfl heq

/-- An instruction run after a fetch in range keeps the invariant. -/
theorem exec_advance_inv {i : Instr} {s t : State} (h : exec i s.advance = .next t) (hs : s.Inv) (hh : s.halted = none)
    (hr : s.PC.toNat ≤ 0xFFE) : t.Inv := by
  obtain ⟨hm, -, hstack, -⟩ := hs
  have hpc : s.advance.PC.toNat ≤ 0x1000 := by rw [State.advance_PC]; bv_omega
  refine ⟨exec_mem_wf h hm, ?_, exec_stack_le h hpc hstack, ?_⟩
  · rcases exec_next_iff.mp h with hc | ⟨e, -, rfl⟩
    · rw [hc.pc_eq]; exact pcAfter_toNat_le i hr hstack
    · exact hpc.trans (by decide)
  · rcases exec_next_iff.mp h with hc | ⟨e, he, rfl⟩
    · rw [hc.halted, State.advance_halted, hh]; rfl
    · exact he.legalHalt (by rwa [State.fetchAddr_advance])

/-- Settles O12: the two error entries of the step cycle keep the invariant, and so does every instruction it runs. -/
theorem stepKeepsTheInvariant : Obligations.StepKeepsTheInvariant := by
  intro s t hs h
  rcases step_cases s with ⟨e, -, hstep⟩ | ⟨-, -, hstep⟩ | ⟨-, hr, -, hstep⟩ | ⟨i, ⟨hh, hr, -⟩, hstep⟩
  · cases hstep.symm.trans h
    exact hs
  · cases hstep.symm.trans h
    obtain ⟨hm, hpc, hstack, -⟩ := hs
    exact ⟨hm, hpc, hstack, by simp [haltLegal, ErrorRecord.legalHalt]⟩
  · cases hstep.symm.trans h
    obtain ⟨hm, -, hstack, -⟩ := hs
    refine ⟨hm, ?_, hstack, by simpa [haltLegal, ErrorRecord.legalHalt] using hr⟩
    rw [State.raise_PC, State.advance_PC]
    bv_omega
  · exact exec_advance_inv (hstep.symm.trans h) hs hh hr

/-- Settles O11: memory of the reset state is the empty list. -/
theorem resetMeetsTheInvariant : Obligations.ResetMeetsTheInvariant :=
  ⟨Memory.nil_wf, by decide, by decide, rfl⟩

end Sys2Proof.Machine
end

section
/-! SUPPORT. A step sees the key latch only through a key instruction (R27, R104). -/

namespace Sys2Proof.Machine

/-- No check of R103 reads the key latch. -/
theorem Raises.setKeyBit {i : Instr} {s : State} {e : ErrorRecord} (h : Raises i s e) (k : KeyIdx) (p : Bool) :
    Raises i (s.setKeyBit k p) e := h

theorem State.skipIf_setKeyBit (s : State) (k : KeyIdx) (p c : Bool) :
    (s.setKeyBit k p).skipIf c = (s.skipIf c).setKeyBit k p := by
  simp only [State.skipIf_eq]; rfl

theorem State.moveIndex_setKeyBit (s : State) (k : KeyIdx) (p : Bool) (x : RegIdx) :
    (s.setKeyBit k p).moveIndex x = (s.moveIndex x).setKeyBit k p := by
  simp only [State.moveIndex_eq]; rfl

theorem State.setLogic_setKeyBit (s : State) (k : KeyIdx) (p : Bool) (x : RegIdx) (r : Byte) :
    (s.setKeyBit k p).setLogic x r = (s.setLogic x r).setKeyBit k p := by
  simp only [State.setLogic_eq]; rfl

/-- The instructions that read the key latch (R93, R94, R97). -/
def readsKeys : Instr → Bool
  | .skp _ | .sknp _ | .ldVxK _ => true
  | _ => false

/-- A run of an instruction that does not read the key latch commutes with a write to it. -/
theorem Completes.setKeyBit {i : Instr} {s t : State} (h : Completes i s t) (hi : readsKeys i = false) (k : KeyIdx)
    (p : Bool) : Completes i (s.setKeyBit k p) (t.setKeyBit k p) := by
  cases i
  case skp | sknp | ldVxK => cases hi
  case sys | ret | call | ldB => obtain ⟨hcond, rfl⟩ := h; exact ⟨hcond, rfl⟩
  case drw => obtain ⟨rows, b, hr, hb, rfl⟩ := h; exact ⟨rows, b, hr, hb, rfl⟩
  case storeRegs | loadRegs =>
    obtain ⟨hr, rfl⟩ := h
    exact ⟨hr, (State.moveIndex_setKeyBit _ k p _).symm⟩
  case or | and | xor => cases h; exact congrArg _ (State.setLogic_setKeyBit s k p _ _)
  case seImm | sneImm | seReg | sneReg => cases h; exact congrArg _ (State.skipIf_setKeyBit s k p _)
  all_goals cases h; rfl

theorem exec_setKeyBit {i : Instr} {s t : State} (h : exec i s = .next t) (hi : readsKeys i = false) (k : KeyIdx)
    (p : Bool) : exec i (s.setKeyBit k p) = .next (t.setKeyBit k p) := by
  rcases exec_next_iff.mp h with hc | ⟨e, he, rfl⟩
  · exact exec_of_completes (hc.setKeyBit hi k p)
  · exact exec_of_raises (he.setKeyBit k p)

/-- Settles O56: the fetch and the checks of a step read no key, so a step not at a key instruction commutes. -/
theorem keysAreSeenOnlyByKeyInstructions : Obligations.KeysAreSeenOnlyByKeyInstructions := by
  intro s t k p hkeys h
  rcases step_cases s with ⟨e, hh, hs⟩ | ⟨hh, hr, hs⟩ | ⟨hh, hr, ⟨e, hd⟩, hs⟩ | ⟨i, hi, hs⟩
  · cases hs.symm.trans h
    exact step_of_halted hh
  · cases hs.symm.trans h
    exact step_of_outOfRange hh hr
  · cases hs.symm.trans h
    exact step_of_unknown hh hr hd
  · have hat : (s.setKeyBit k p).AtInstr i := hi
    have hread : readsKeys i = false := by
      cases i
      case skp x | sknp x | ldVxK x =>
        obtain ⟨hskp, hsknp, hldVxK⟩ := hkeys x
        contradiction
      all_goals rfl
    rw [step_of_atInstr hat]
    exact exec_setKeyBit (hs.symm.trans h) hread k p

end Sys2Proof.Machine
end

section
/-! SUPPORT. Frames of several commands, the timers' ticks (R111), and `load` (R120, R121). -/

namespace Sys2Proof.Machine

/-! ### Frames -/

theorem StatePart.same_refl (p : StatePart) (s : State) : p.Same s s := by
  cases p <;> simp [StatePart.Same]

theorem StatePart.Same.trans {p : StatePart} {s t u : State} (h : p.Same s t) (h' : p.Same t u) : p.Same s u := by
  cases p
  case mem | V | stack | keys => exact fun k => (h' k).trans (h k)
  case FB => exact fun y x => (h' y x).trans (h y x)
  all_goals exact Eq.trans h' h

theorem ChangesOnly.refl (ps : List StatePart) (s : State) : ChangesOnly ps s s := fun p _ => p.same_refl s

theorem ChangesOnly.trans {ps : List StatePart} {s t u : State} (h : ChangesOnly ps s t) (h' : ChangesOnly ps t u) :
    ChangesOnly ps s u := fun p hp => (h p hp).trans (h' p hp)

/-! ### Ticks -/

theorem tickTimers_changesOnly (s : State) : ChangesOnly [.DT, .ST] s (tickTimers s) := by
  intro p hp
  cases p
  case DT | ST => simp at hp
  all_goals simp [StatePart.Same, tickTimers]

theorem tickTimers_DT_toNat (s : State) : (tickTimers s).DT.toNat = s.DT.toNat - 1 := countDown_toNat _

theorem tickTimers_ST_toNat (s : State) : (tickTimers s).ST.toNat = s.ST.toNat - 1 := countDown_toNat _

theorem runSchedule_cons_of_issue {c : Command} {cs : List Command} {s t u : State} {r : Result} {rs : List Result}
    (hc : issue c s = .next (t, r)) (hcs : runSchedule cs t = .next (u, rs)) :
    runSchedule (c :: cs) s = .next (u, r :: rs) := by
  simp [runSchedule, hc, hcs]

/-- Settles O52, by induction on the number of ticks. -/
theorem ticksCountDownToZero : Obligations.TicksCountDownToZero := by
  intro n
  induction n with
  | zero => exact fun s => ⟨s, [], rfl, rfl, rfl, ChangesOnly.refl _ s⟩
  | succ n ih =>
    intro s
    obtain ⟨t, rs, hrun, hdt, hst, hframe⟩ := ih (tickTimers s)
    refine ⟨t, .ok :: rs, runSchedule_cons_of_issue rfl hrun, ?_, ?_, (tickTimers_changesOnly s).trans hframe⟩
    · rw [hdt, tickTimers_DT_toNat]; omega
    · rw [hst, tickTimers_ST_toNat]; omega

/-! ### `load` -/

theorem Memory.writeBytes_nil_replicate_zero (a n : Nat) : Memory.writeBytes [] a (List.replicate n 0) = [] := by
  induction n generalizing a with
  | zero => rfl
  | succ n ih => exact ih (a + 1)

/-- Construction with the parameters of `State.reset` is that state: its font image is 80 zero bytes. -/
theorem State.construct_reset : State.construct State.reset.cfg State.reset.drawIndex = State.reset := by
  simp only [State.construct, State.reset, Config.default, Vector.toList_replicate,
    Memory.writeBytes_nil_replicate_zero]

/-- The state a `load` that succeeds leaves (R120). -/
def loaded (bytes : List Byte) (s : State) : State :=
  (State.construct s.cfg s.drawIndex).setMem
    (Memory.writeBytes (State.construct s.cfg s.drawIndex).mem loadAddr bytes)

theorem issue_load_of_le {bytes : List Byte} (h : bytes.length ≤ 3584) (s : State) :
    issue (.load bytes) s = .next (loaded bytes s, .ok) := by
  simp only [issue, loadProgram, if_neg (Nat.not_lt.mpr h), loaded]

theorem issue_load_of_gt {bytes : List Byte} (h : bytes.length > 3584) (s : State) :
    issue (.load bytes) s = .next (s, .error (.programTooLarge bytes.length)) := by
  simp only [issue, loadProgram, if_pos h]

theorem loaded_nil (s : State) : loaded [] s = State.construct s.cfg s.drawIndex := rfl

/-- Memory after a `load`: the program, and elsewhere the font image on zeroed memory. -/
theorem loaded_readByte (bytes : List Byte) (s : State) (a : Nat) :
    (loaded bytes s).mem.readByte a =
      if h : 0x200 ≤ a ∧ a < 0x200 + bytes.length then bytes[a - 0x200]
      else if h : s.cfg.fontBase.val ≤ a ∧ a < s.cfg.fontBase.val + 80 then s.cfg.fontImage[a - s.cfg.fontBase.val]
      else 0 := by
  simp [loaded, State.construct, Memory.readByte_writeBytes]

/-- Settles O50, from what memory reads as after a `load`; every other field is that of the reset state. -/
theorem loadResetsOrChangesNothing : Obligations.LoadResetsOrChangesNothing := by
  refine ⟨fun s bytes hlen =>
      ⟨loaded bytes s, issue_load_of_le hlen s, fun k hk => ?_, fun k => ?_, fun a hf hp => ?_, ?_⟩,
    fun s bytes hlen => issue_load_of_gt hlen s, ?_⟩
  · rw [loaded_readByte, dif_pos (by omega)]
    simp [hk]
  · have hbase := s.cfg.fontBase.isLt
    rw [loaded_readByte, dif_neg (by omega), dif_pos (by omega)]
    simp
  · rw [loaded_readByte, dif_neg (by omega), dif_neg (by omega)]
  · simp [loaded, State.construct, State.reset]
  · rw [issue_load_of_le (Nat.zero_le _), loaded_nil, State.construct_reset]

end Sys2Proof.Machine
end

section
/-! SUPPORT. Written bytes read back: by a read, by the next fetch (R35 to R37, R43), and as a word placed at PC (log entry
7). -/

namespace Sys2Proof.Machine

/-! ### The access primitives -/

theorem Memory.readByte_writeBytes_inside (m : Memory) (a : Nat) {bs : List Byte} {k : Nat} (hk : k < bs.length) :
    (m.writeBytes a bs).readByte (a + k) = bs[k] := by
  rw [Memory.readByte_writeBytes, dif_pos (by omega)]
  simp

theorem Memory.readByte_writeBytes_outside (m : Memory) {a k : Nat} {bs : List Byte} (h : k < a ∨ a + bs.length ≤ k) :
    (m.writeBytes a bs).readByte k = m.readByte k := by
  rw [Memory.readByte_writeBytes, dif_neg (by omega)]

theorem Memory.readBytes_writeBytes (m : Memory) (a : Nat) (bs : List Byte) :
    (m.writeBytes a bs).readBytes a bs.length = bs :=
  List.ext_getElem (Memory.readBytes_length _ _ _) fun k _ hk => by
    rw [Memory.readBytes_getElem, Memory.readByte_writeBytes_inside m a hk]

/-- Settles O45: in range both primitives are the plain block read and write, and out of range both raise. -/
theorem memoryReadsAndWrites : Obligations.MemoryReadsAndWrites := by
  intro m addr bytes _
  constructor
  · intro hr
    refine ⟨m.writeBytes addr bytes, m.readBytes addr bytes.length, memWrite_eq_ok hr, ?_, memRead_eq_ok hr,
      Memory.readBytes_length _ _ _, fun k hk => ⟨?_, ?_⟩, fun a ha => Memory.readByte_writeBytes_outside m ha⟩
    · rw [memRead_eq_ok hr, Memory.readBytes_writeBytes]
    · rw [← List.getElem_eq_getD (h := by simpa using hk), Memory.readBytes_getElem]
    · rw [← List.getElem_eq_getD (h := hk), Memory.readByte_writeBytes_inside m addr hk]
  · intro hr
    exact ⟨memWrite_eq_error hr, memRead_eq_error hr⟩

/-! ### Fetch coherence -/

theorem fetchWord_eq_ok {s : State} (h : s.PC.toNat ≤ 0xFFE) : fetchWord s = .ok s.wordAtPC := by
  rcases fetchWord_cases s with ⟨hlt, -⟩ | ⟨-, hf⟩
  · omega
  · exact hf

/-- The bytes a block store in range leaves (R91). -/
theorem readByte_of_exec_storeRegs {x k : RegIdx} {s t : State} (h : exec (.storeRegs x) s = .next t)
    (hr : s.I.toNat + x.val ≤ 0xFFF) (hk : k ≤ x) : t.mem.readByte (s.I.toNat + k.val) = s.V[k] := by
  rcases exec_next_iff.mp h with ⟨-, rfl⟩ | ⟨e, ⟨hlt, -⟩, -⟩
  · have hlen : k.val < (s.regBlock x).length := s.regBlock_length x ▸ Nat.lt_succ_of_le hk
    rw [State.moveIndex_eq]
    exact (Memory.readByte_writeBytes_inside s.mem _ hlen).trans (s.regBlock_getElem x k hlen)
  · omega

/-- Settles O44: the two bytes at the new PC are those the store left. -/
theorem storedBytesAreFetched : Obligations.StoredBytesAreFetched := by
  intro x k j s t hr hj hjx h
  rw [Fin.le_def] at hjx
  have hkx : k.val ≤ x.val := by omega
  have hpc : (BitVec.ofNat 16 (s.I.toNat + k.val)).toNat = s.I.toNat + k.val :=
    (BitVec.toNat_ofNat _ _).trans (Nat.mod_eq_of_lt (by omega))
  rw [fetchWord_eq_ok (by rw [hpc]; omega)]
  simp only [State.wordAtPC, hpc]
  rw [readByte_of_exec_storeRegs h hr hkx, Nat.add_assoc, ← hj, readByte_of_exec_storeRegs h hr hjx]

/-! ### A word placed at PC -/

theorem wordOfBytes_ofNat (w : Nat) : wordOfBytes (BitVec.ofNat 8 (w / 256)) (BitVec.ofNat 8 w) = BitVec.ofNat 16 w := by
  refine BitVec.eq_of_toNat_eq ?_
  rw [wordOfBytes, BitVec.toNat_append, BitVec.toNat_ofNat, BitVec.toNat_ofNat, BitVec.toNat_ofNat,
    ← Nat.shiftLeft_add_eq_or_of_lt (Nat.mod_lt _ (by decide)), Nat.shiftLeft_eq]
  omega

theorem tableBytes_of_lt {w : Nat} (h : w < 65536) : tableBytes 16 w = [BitVec.ofNat 8 (w / 256), BitVec.ofNat 8 w] := by
  simp only [tableBytes, Nat.mod_eq_of_lt (b := 2 ^ 16) h]

theorem State.readyToFetch_PC_le (s : State) : s.readyToFetch.PC.toNat ≤ 0xFFE := by
  unfold State.readyToFetch
  dsimp only
  split
  · decide
  · omega

theorem State.readyToFetch_eq_self {s : State} (hh : s.halted = none) (hr : s.PC.toNat ≤ 0xFFE) : s.readyToFetch = s := by
  unfold State.readyToFetch
  rw [if_neg (by omega), ← hh]

theorem State.wordAtPC_placeAtPC (s : State) (hi lo : Byte) : (s.placeAtPC [hi, lo]).wordAtPC = wordOfBytes hi lo := by
  have h0 := Memory.readByte_writeBytes_inside s.mem s.PC.toNat (bs := [hi, lo]) (k := 0) Nat.two_pos
  have h1 := Memory.readByte_writeBytes_inside s.mem s.PC.toNat (bs := [hi, lo]) (k := 1) Nat.one_lt_two
  exact congrArg₂ wordOfBytes h0 h1

theorem State.setMem_changesOnly (s : State) (m : Memory) : ChangesOnly [.mem] s (s.setMem m) := by
  intro p hp
  cases p
  case mem => simp at hp
  all_goals simp [StatePart.Same]

/-- Settles O59: making a state ready to fetch leaves one that is ready as it is, and placing the word writes memory alone. -/
theorem placedWordIsFetched : Obligations.PlacedWordIsFetched := by
  intro s w hw
  unfold State.withFetchWord
  rw [tableBytes_of_lt hw]
  refine ⟨?_, rfl, fun hh hr => ?_⟩
  · rw [fetchWord_eq_ok (s := s.readyToFetch.placeAtPC _) s.readyToFetch_PC_le, State.wordAtPC_placeAtPC, wordOfBytes_ofNat]
  · rw [State.readyToFetch_eq_self hh hr]
    refine ⟨s.setMem_changesOnly _, fun a h0 h1 => Memory.readByte_writeBytes_outside s.mem ?_⟩
    simp only [List.length_cons, List.length_nil]
    omega

end Sys2Proof.Machine
end

section
/-! SUPPORT. The words of an instruction, and what the decoder answers (spec/30_encoding.md R50 to R53). `decodeWord_eq_ok_iff`
says which words decode to an instruction, and `decodeWord_error_iff` which decode to none. -/

namespace Sys2Proof

/-! ### The words of an instruction -/

/-- `w` is a word of the instruction: the encoder's, and for `5xyn` and `9xyn` the same with any low nibble (R51). -/
def IsWordOf (w : Word) : Instr → Prop
  | .seReg x y => ∃ n, w = wordXYN 0x5 x y n
  | .sneReg x y => ∃ n, w = wordXYN 0x9 x y n
  | i => w = encode i

theorem isWordOf_encode (i : Instr) : IsWordOf (encode i) i := by
  cases i
  case seReg | sneReg => exact ⟨0, rfl⟩
  all_goals rfl

theorem IsWordOf.and_rowMask {w : Word} {i : Instr} (h : IsWordOf w i) : w &&& rowMask i = rowMatch i := by
  cases i
  case seReg | sneReg => obtain ⟨n, rfl⟩ := h; exact Laws.TableRow.wordXYN_op _ _ _ _
  all_goals cases h
  case cls | ret => rfl
  case sys | jp | call | ldI | jpV0 => exact Laws.TableRow.wordNNN_op _ _
  case seImm | sneImm | ldImm | addImm | rnd => exact Laws.TableRow.wordXKK_op _ _ _
  case drw => exact Laws.TableRow.wordXYN_op _ _ _ _
  case ldReg | or | and | xor | addReg | sub | shr | subn | shl => exact Laws.TableRow.wordXYN_fn _ _ _ _
  all_goals exact Laws.TableRow.wordXKK_fn _ _ _

theorem wordXYN_and_0xFFF0 (op : BitVec 4) (x y : RegIdx) (n : BitVec 4) :
    wordXYN op x y n &&& 0xFFF0 = wordXYN op x y 0 := by
  refine BitVec.eq_of_getLsbD_eq fun j hj => ?_
  simp only [BitVec.getLsbD_and, wordXYN_getLsbD]
  interval_cases j <;> simp

/-- The encoder's word from any word of the instruction: the nibble that R51 leaves unexamined becomes 0. -/
theorem IsWordOf.encode_eq {w : Word} {i : Instr} (h : IsWordOf w i) :
    encode i = if w >>> 12 = 0x5 ∨ w >>> 12 = 0x9 then w &&& 0xFFF0 else w := by
  rw [shiftRight_eq_fieldOp]
  cases i
  case seReg | sneReg =>
    obtain ⟨n, rfl⟩ := h
    rw [fieldOp_wordXYN, if_pos (by decide), wordXYN_and_0xFFF0, encode]
  all_goals cases h
  case cls | ret => rfl
  all_goals simp [encode]

/-! ### Decoding by families (R50) -/

theorem decodeWord_family0 {w : Word} (h : fieldOp w = 0x0#4) : decodeWord w = .ok (decodeFamily0 w) := by
  simp only [decodeWord, h]

theorem decodeWord_family8 {w : Word} (h : fieldOp w = 0x8#4) : decodeWord w = decodeFamily8 w := by
  simp only [decodeWord, h]

theorem decodeWord_familyE {w : Word} (h : fieldOp w = 0xE#4) : decodeWord w = decodeFamilyE w := by
  simp only [decodeWord, h]

theorem decodeWord_familyF {w : Word} (h : fieldOp w = 0xF#4) : decodeWord w = decodeFamilyF w := by
  unfold decodeWord; rw [h]; rfl

/-- The last arm of `decodeWord` is family 0xF. -/
theorem fieldOp_eq_0xF {w : Word}
    (h : fieldOp w ∉ [0x0, 0x1, 0x2, 0x3, 0x4, 0x5, 0x6, 0x7, 0x8, 0x9, 0xA, 0xB, 0xC, 0xD, 0xE]) : fieldOp w = 0xF := by
  generalize fieldOp w = op at h
  revert op
  decide

/-! ### A word that decodes is a word of its instruction -/

theorem decodeFamily0_isWordOf {w : Word} (hop : fieldOp w = 0x0#4) :
    (decodeFamily0 w).WellFormed ∧ IsWordOf w (decodeFamily0 w) := by
  have hw : w = wordNNN 0x0 (fieldNNN w) := (hop ▸ wordNNN_fields w).symm
  unfold decodeFamily0
  split
  · exact ⟨rfl, ‹_›⟩
  split
  · exact ⟨rfl, ‹_›⟩
  · have h0 : fieldNNN w ≠ 0x0E0#12 := fun h => ‹w ≠ 0x00E0#16› (hw.trans (h ▸ rfl))
    have hE : fieldNNN w ≠ 0x0EE#12 := fun h => ‹w ≠ 0x00EE#16› (hw.trans (h ▸ rfl))
    exact ⟨by simp [Instr.WellFormed, Instr.wellFormed, h0, hE], hw⟩

theorem decodeFamily8_isWordOf {w : Word} {i : Instr} (hop : fieldOp w = 0x8#4) (h : decodeFamily8 w = .ok i) :
    i.WellFormed ∧ IsWordOf w i := by
  have hw := wordXYN_fields w
  rw [hop] at hw
  unfold decodeFamily8 at h
  split at h <;> cases h <;> exact ⟨rfl, (‹fieldN w = _› ▸ hw).symm⟩

theorem decodeFamilyE_isWordOf {w : Word} {i : Instr} (hop : fieldOp w = 0xE#4) (h : decodeFamilyE w = .ok i) :
    i.WellFormed ∧ IsWordOf w i := by
  have hw := wordXKK_fields w
  rw [hop] at hw
  unfold decodeFamilyE at h
  split at h <;> cases h <;> exact ⟨rfl, (‹fieldKK w = _› ▸ hw).symm⟩

theorem decodeFamilyF_isWordOf {w : Word} {i : Instr} (hop : fieldOp w = 0xF#4) (h : decodeFamilyF w = .ok i) :
    i.WellFormed ∧ IsWordOf w i := by
  have hw := wordXKK_fields w
  rw [hop] at hw
  unfold decodeFamilyF at h
  split at h <;> cases h <;> exact ⟨rfl, (‹fieldKK w = _› ▸ hw).symm⟩

theorem decodeWord_isWordOf {w : Word} {i : Instr} (h : decodeWord w = .ok i) : i.WellFormed ∧ IsWordOf w i := by
  have hNNN := wordNNN_fields w
  have hXKK := wordXKK_fields w
  have hXYN := wordXYN_fields w
  unfold decodeWord at h
  split at h
  case h_1 hop => cases h; exact decodeFamily0_isWordOf hop
  case h_9 hop => exact decodeFamily8_isWordOf hop h
  case h_15 hop => exact decodeFamilyE_isWordOf hop h
  case h_16 => exact decodeFamilyF_isWordOf (fieldOp_eq_0xF (by simp_all)) h
  case h_2 hop | h_3 hop | h_11 hop | h_12 hop => cases h; exact ⟨rfl, (hop ▸ hNNN).symm⟩
  case h_4 hop | h_5 hop | h_7 hop | h_8 hop | h_13 hop => cases h; exact ⟨rfl, (hop ▸ hXKK).symm⟩
  case h_6 hop | h_10 hop => cases h; exact ⟨rfl, fieldN w, (hop ▸ hXYN).symm⟩
  case h_14 hop => cases h; exact ⟨rfl, (hop ▸ hXYN).symm⟩

/-! ### A word of an instruction decodes to it -/

theorem decodeFamily0_eq_sys {w : Word} (h0 : w ≠ 0x00E0) (hE : w ≠ 0x00EE) : decodeFamily0 w = .sys (fieldNNN w) :=
  (if_neg h0).trans (if_neg hE)

/-- The SYS row gives way to the words 00E0 and 00EE alone (R52). -/
theorem decodeFamily0_wordNNN {nnn : Addr12} (h : (Instr.sys nnn).WellFormed) :
    decodeFamily0 (wordNNN 0x0 nnn) = .sys nnn := by
  obtain ⟨h0, hE⟩ : nnn ≠ 0x0E0#12 ∧ nnn ≠ 0x0EE#12 := by simpa [Instr.WellFormed, Instr.wellFormed] using h
  have hw0 : wordNNN 0x0 nnn ≠ 0x00E0#16 := fun h => h0 (by rw [← fieldNNN_wordNNN 0x0 nnn, h]; rfl)
  have hwE : wordNNN 0x0 nnn ≠ 0x00EE#16 := fun h => hE (by rw [← fieldNNN_wordNNN 0x0 nnn, h]; rfl)
  rw [decodeFamily0_eq_sys hw0 hwE, fieldNNN_wordNNN]

theorem decodeWord_of_isWordOf {w : Word} {i : Instr} (hi : i.WellFormed) (h : IsWordOf w i) : decodeWord w = .ok i := by
  cases i
  case seReg | sneReg => obtain ⟨n, rfl⟩ := h; simp [decodeWord]
  all_goals cases h
  case cls | ret => rfl
  case sys nnn => rw [encode, decodeWord_family0 (fieldOp_wordNNN 0x0 nnn), decodeFamily0_wordNNN hi]
  case ldReg | or | and | xor | addReg | sub | shr | subn | shl => simp [encode, decodeWord_family8, decodeFamily8]
  case skp | sknp => simp [encode, decodeWord_familyE, decodeFamilyE]
  case ldVxDt | ldVxK | ldDtVx | ldStVx | addI | ldF | ldB | storeRegs | loadRegs =>
    simp [encode, decodeWord_familyF, decodeFamilyF]
  all_goals simp [encode, decodeWord]

theorem decodeWord_eq_ok_iff {w : Word} {i : Instr} : decodeWord w = .ok i ↔ i.WellFormed ∧ IsWordOf w i :=
  ⟨decodeWord_isWordOf, fun ⟨hi, h⟩ => decodeWord_of_isWordOf hi h⟩

/-- Settles O2: the encoder's word is a word of the instruction, and its two bytes make that word again. -/
theorem decodeEncodeRoundTrip : Obligations.DecodeEncodeRoundTrip := by
  intro i hi
  have hd : decodeWord (encode i) = .ok i := decodeWord_eq_ok_iff.mpr ⟨hi, isWordOf_encode i⟩
  exact ⟨hd, fun rest => by simp [encodeBytes, decodeBytes, wordOfBytes_encodeBytes, hd]⟩

/-- Settles O5: a word that decodes is a word of its instruction. -/
theorem encodeOfDecodedWord : Obligations.EncodeOfDecodedWord := by
  intro w i h
  obtain ⟨-, hw⟩ := decodeWord_eq_ok_iff.mp h
  exact hw.encode_eq

/-! ### A word in a row of the opcode map decodes into that row (R52) -/

/-- Masking keeps a field on which the mask is all ones. -/
theorem extractLsb'_of_and {w m v : Word} {k n : Nat} (h : w &&& m = v) (hm : m.extractLsb' k n = BitVec.allOnes n) :
    w.extractLsb' k n = v.extractLsb' k n := by
  rw [← h, BitVec.extractLsb'_and, hm, BitVec.and_allOnes]

theorem decodeWord_of_row {w : Word} {j : Instr} (h : w &&& rowMask j = rowMatch j)
    (hs : rowMatch j = 0x0000 → w ≠ 0x00E0 ∧ w ≠ 0x00EE) :
    ∃ i, decodeWord w = .ok i ∧ rowMask i = rowMask j ∧ rowMatch i = rowMatch j := by
  cases j
  all_goals rw [rowMask, rowMatch] at h
  case cls | ret =>
    rw [BitVec.and_allOnes.symm.trans h]
    exact ⟨_, rfl, rfl, rfl⟩
  all_goals have hop : fieldOp w = fieldOp _ := extractLsb'_of_and h rfl
  case sys =>
    obtain ⟨h0, hE⟩ := hs rfl
    rw [decodeWord_family0 hop, decodeFamily0_eq_sys h0 hE]
    exact ⟨_, rfl, rfl, rfl⟩
  case ldReg | or | and | xor | addReg | sub | shr | subn | shl =>
    rw [decodeWord_family8 hop, decodeFamily8, show fieldN w = fieldN _ from extractLsb'_of_and h rfl]
    exact ⟨_, rfl, rfl, rfl⟩
  case skp | sknp =>
    rw [decodeWord_familyE hop, decodeFamilyE, show fieldKK w = fieldKK _ from extractLsb'_of_and h rfl]
    exact ⟨_, rfl, rfl, rfl⟩
  case ldVxDt | ldVxK | ldDtVx | ldStVx | addI | ldF | ldB | storeRegs | loadRegs =>
    rw [decodeWord_familyF hop, decodeFamilyF, show fieldKK w = fieldKK _ from extractLsb'_of_and h rfl]
    exact ⟨_, rfl, rfl, rfl⟩
  all_goals
    rw [decodeWord, hop]
    exact ⟨_, rfl, rfl, rfl⟩

/-- Settles O3: a word that decodes is a word of its instruction, which lies in the instruction's row. -/
theorem decodingFollowsTheOpcodeMap : Obligations.DecodingFollowsTheOpcodeMap := by
  refine ⟨fun w i h => ?_, fun w j h hs => decodeWord_of_row h hs⟩
  obtain ⟨hi, hw⟩ := decodeWord_eq_ok_iff.mp h
  exact ⟨hi, hw.and_rowMask⟩

/-! ### The words with no instruction (R53) -/

theorem decodeFamily8_error_iff {w : Word} :
    (∃ e, decodeFamily8 w = .error e) ↔ fieldN w ∈ [0x8, 0x9, 0xA, 0xB, 0xC, 0xD, 0xF] := by
  unfold decodeFamily8
  split
  case h_10 =>
    have hrest : ∀ n : BitVec 4, n ∉ [0x0, 0x1, 0x2, 0x3, 0x4, 0x5, 0x6, 0x7, 0xE] →
        n ∈ [0x8, 0x9, 0xA, 0xB, 0xC, 0xD, 0xF] := by decide
    exact iff_of_true ⟨_, rfl⟩ (hrest _ (by simp_all))
  all_goals simp [*]

theorem decodeFamilyE_error_iff {w : Word} : (∃ e, decodeFamilyE w = .error e) ↔ fieldKK w ∉ [0x9E, 0xA1] := by
  unfold decodeFamilyE
  split <;> simp_all

theorem decodeFamilyF_error_iff {w : Word} :
    (∃ e, decodeFamilyF w = .error e) ↔ fieldKK w ∉ [0x07, 0x0A, 0x15, 0x18, 0x1E, 0x29, 0x33, 0x55, 0x65] := by
  unfold decodeFamilyF
  split <;> simp_all

theorem decodeWord_error_iff {w : Word} :
    (∃ e, decodeWord w = .error e) ↔
      (fieldOp w = 0x8 ∧ ∃ e, decodeFamily8 w = .error e) ∨
      (fieldOp w = 0xE ∧ ∃ e, decodeFamilyE w = .error e) ∨
      (fieldOp w = 0xF ∧ ∃ e, decodeFamilyF w = .error e) := by
  unfold decodeWord
  split
  case h_16 =>
    have hF : fieldOp w = 0xF := fieldOp_eq_0xF (by simp_all)
    simp [hF]
  all_goals simp [*]

/-- A field of a word and a constant compare alike as they are and widened to a word. -/
theorem setWidth_word_injective {n : Nat} (h : n ≤ 16) : Function.Injective (BitVec.setWidth 16 : BitVec n → Word) :=
  fun _ _ hab => BitVec.eq_of_toNat_eq (by simpa [BitVec.toNat_setWidth_of_le h] using congrArg BitVec.toNat hab)

theorem shiftRight_eq_iff (w : Word) (op : BitVec 4) : w >>> 12 = op.setWidth 16 ↔ fieldOp w = op := by
  rw [shiftRight_eq_fieldOp, (setWidth_word_injective (by decide)).eq_iff]

theorem and_0xF_mem_iff (w : Word) (ns : List (BitVec 4)) : w &&& 0xF ∈ ns.map (BitVec.setWidth 16) ↔ fieldN w ∈ ns := by
  rw [and_eq_fieldN, List.mem_map_of_injective (setWidth_word_injective (by decide))]

theorem and_0xFF_mem_iff (w : Word) (bs : List Byte) : w &&& 0xFF ∈ bs.map (BitVec.setWidth 16) ↔ fieldKK w ∈ bs := by
  rw [and_eq_fieldKK, List.mem_map_of_injective (setWidth_word_injective (by decide))]

/-- Settles O4: the rejects of the three families of R50 that have some. -/
theorem unknownWordsAreExactlyThese : Obligations.UnknownWordsAreExactlyThese := by
  intro w
  rw [decodeWord_error_iff, decodeFamily8_error_iff, decodeFamilyE_error_iff, decodeFamilyF_error_iff]
  simp only [← shiftRight_eq_iff, ← and_0xF_mem_iff, ← and_0xFF_mem_iff]
  rfl

/-- Settles O1, by running the decoder. -/
theorem specWordsDecode : Obligations.SpecWordsDecode := by
  unfold Obligations.SpecWordsDecode
  decide

end Sys2Proof
end

section
/-! SUPPORT. The step cycle with its next states written out (R49). -/

namespace Sys2Proof.Machine

/-- Settles O6, clause by clause from what decides a step; a decoded instruction is well-formed. -/
theorem stepRunsTheDecodedInstruction : Obligations.StepRunsTheDecodedInstruction := by
  intro s
  refine ⟨fun e he => step_of_halted he, fun hh hr => step_of_outOfRange hh (by omega),
    fun hh hr d hd => step_of_unknown hh (by omega) hd, fun hh hr i hd => ⟨?_, ?_⟩⟩
  · obtain ⟨hi, -⟩ := decodeWord_eq_ok_iff.mp hd
    exact hi
  · exact step_of_atInstr ⟨hh, by omega, hd⟩

end Sys2Proof.Machine
end

section
/-! SUPPORT. Control flow (spec/40_control_flow.md R58 to R67): what the operands and PC come to, the frames of a jump, a call and
a return, and the statements assembled from them. -/

namespace Sys2Proof.Machine

/-! ### Operands -/

@[simp] theorem zext16_toNat (nnn : Addr12) : (zext16 nnn).toNat = nnn.toNat :=
  BitVec.toNat_setWidth_of_le (by decide)

@[simp] theorem zextByte_toNat (b : Byte) : (zextByte b).toNat = b.toNat :=
  BitVec.toNat_setWidth_of_le (by decide)

/-- The word that SYS reports, rebuilt from its operand (log entry 21). -/
theorem zext16_eq_append (nnn : Addr12) : zext16 nnn = 0x0#4 ++ nnn := by
  refine BitVec.eq_of_toNat_eq ((zext16_toNat nnn).trans ?_)
  rw [BitVec.toNat_append, BitVec.toNat_ofNat, Nat.zero_mod, Nat.zero_shiftLeft, Nat.zero_or]

/-- PC holds `a + 2` while the instruction fetched from `a` executes (R16). -/
theorem State.fetchAddr_eq {s : State} {a : Word} (h : s.PC = a + 2) : s.fetchAddr = a := by
  rw [State.fetchAddr, h, BitVec.add_sub_cancel]

/-! ### Jumps and skips -/

theorem State.setPC_changesOnly (s : State) (w : Word) : ChangesOnly [.PC] s (s.setPC w) := by
  intro p hp
  cases p
  case PC => simp at hp
  all_goals simp [StatePart.Same]

theorem State.skipIf_changesOnly (s : State) (c : Bool) : ChangesOnly [.PC] s (s.skipIf c) := by
  rw [State.skipIf_eq]
  exact s.setPC_changesOnly _

/-- PC after a skip whose condition is `p`. -/
theorem State.skipIf_decide_PC (s : State) (p : Prop) [Decidable p] :
    (s.skipIf (decide p)).PC = if p then s.PC + 2 else s.PC := by
  simp only [State.skipIf_eq, State.setPC_PC, decide_eq_true_eq]

/-- The nnn + V0 of R67 needs no more than 16 bits. -/
theorem toNat_zext16_add_zextByte (nnn : Addr12) (b : Byte) :
    (zext16 nnn + zextByte b).toNat = nnn.toNat + b.toNat := by
  rw [BitVec.toNat_add, zext16_toNat, zextByte_toNat]
  omega

/-- Settles O18: `JP` is one write of PC. -/
theorem jpJumps : Obligations.JpJumps := fun nnn s =>
  ⟨decodeWord_of_isWordOf rfl rfl, _, rfl, zext16_toNat nnn, s.setPC_changesOnly _⟩

/-- Settles O24: the sum is exact in 16 bits. -/
theorem jpV0AddsV0 : Obligations.JpV0AddsV0 := fun nnn s =>
  ⟨decodeWord_of_isWordOf rfl rfl, _, rfl, toNat_zext16_add_zextByte nnn _, s.setPC_changesOnly _⟩

/-- Settles O22: SE is the skip on `p` and SNE the skip on `¬ p`, whose branches `ite_not` turns round. -/
theorem skipsOnAnImmediate : Obligations.SkipsOnAnImmediate := fun _ _ s =>
  ⟨decodeWord_of_isWordOf rfl rfl, decodeWord_of_isWordOf rfl rfl,
    ⟨_, rfl, s.skipIf_changesOnly _, s.skipIf_decide_PC _⟩,
    ⟨_, rfl, s.skipIf_changesOnly _, (s.skipIf_decide_PC _).trans (ite_not ..)⟩⟩

/-- Settles O23: the same two skips, and a word with any low nibble is a word of the instruction (R51). -/
theorem skipsOnTwoRegisters : Obligations.SkipsOnTwoRegisters := fun _ _ s =>
  ⟨fun n => ⟨decodeWord_of_isWordOf rfl ⟨n, rfl⟩, decodeWord_of_isWordOf rfl ⟨n, rfl⟩⟩,
    ⟨_, rfl, s.skipIf_changesOnly _, s.skipIf_decide_PC _⟩,
    ⟨_, rfl, s.skipIf_changesOnly _, (s.skipIf_decide_PC _).trans (ite_not ..)⟩⟩

/-! ### SYS -/

theorem wellFormed_sys {nnn : Addr12} (h0 : nnn ≠ 0x0E0) (hE : nnn ≠ 0x0EE) : (Instr.sys nnn).WellFormed :=
  Bool.and_eq_true_iff.mpr ⟨decide_eq_true h0, decide_eq_true hE⟩

/-- Settles O16, one value of SYS_POLICY after the other. -/
theorem sysFollowsItsPolicy : Obligations.SysFollowsItsPolicy := by
  intro nnn s a hpc
  refine ⟨fun h0 hE => decodeWord_of_isWordOf (wellFormed_sys h0 hE) rfl, fun hp => exec_of_raises ⟨hp, ?_⟩,
    fun hp => exec_of_completes ⟨hp, rfl⟩⟩
  rw [zext16_eq_append, State.fetchAddr_eq hpc]

/-! ### CALL and RET -/

/-- CALL on a full stack (R61). -/
theorem exec_call_of_full {s : State} {a : Word} (hs : s.SP = 16) (hpc : s.PC = a + 2) (nnn : Addr12) :
    exec (.call nnn) s = .next (s.raise (.stackOverflow a)) :=
  exec_of_raises ⟨hs, by rw [State.fetchAddr_eq hpc]⟩

/-- CALL with `k` entries on the stack pushes PC as entry `k` (R61). -/
theorem exec_call_of_SP_eq {s : State} {k : Fin 16} (hs : s.SP.val = k.val) (nnn : Addr12) :
    exec (.call nnn) s = .next { s with stack := s.stack.set k s.PC, SP := k.succ, PC := zext16 nnn } :=
  exec_of_completes ⟨by omega, by simp only [hs, Fin.succ]⟩

/-- RET on an empty stack (R59). -/
theorem exec_ret_of_empty {s : State} {a : Word} (hs : s.SP = 0) (hpc : s.PC = a + 2) :
    exec .ret s = .next (s.raise (.stackUnderflow a)) :=
  exec_of_raises ⟨hs, by rw [State.fetchAddr_eq hpc]⟩

/-- RET with `k + 1` entries on the stack pops entry `k` (R59). -/
theorem exec_ret_of_SP_eq_succ {s : State} {k : Fin 16} (hs : s.SP.val = k.val + 1) :
    exec .ret s = .next { s with SP := k.castSucc, PC := s.stack[k] } :=
  exec_of_completes ⟨by omega, by simp [hs, Fin.castSucc, Fin.castAdd, Fin.castLE]⟩

/-- Settles O17: an empty stack, and a stack with `k + 1` entries. -/
theorem retPopsTheReturnAddress : Obligations.RetPopsTheReturnAddress := by
  refine ⟨rfl, fun s a hpc => ⟨fun hs => exec_ret_of_empty hs hpc, fun k hs => ?_⟩⟩
  refine ⟨_, exec_ret_of_SP_eq_succ hs, rfl, rfl, fun p hp => ?_⟩
  cases p
  case SP | PC => simp at hp
  all_goals simp [StatePart.Same]

/-- Settles O19: a full stack, and a stack with `k` entries. -/
theorem callPushesTheReturnAddress : Obligations.CallPushesTheReturnAddress := by
  intro nnn s a hpc
  refine ⟨decodeWord_of_isWordOf rfl rfl, fun hs => exec_call_of_full hs hpc nnn, fun k hs => ?_⟩
  refine ⟨_, exec_call_of_SP_eq hs nnn, rfl, ?_, fun j hj => ?_, zext16_toNat nnn, fun p hp => ?_⟩
  · simp [hpc]
  · exact Vector.getElem_set_ne k.isLt j.isLt fun h => hj (Fin.ext h.symm)
  · cases p
    case stack | SP | PC => simp at hp
    all_goals simp [StatePart.Same]

/-- Settles O20: RET pops the entry that CALL pushed, which is PC. -/
theorem returnUndoesCall : Obligations.ReturnUndoesCall := by
  intro nnn s t p hs h
  cases (exec_call_of_SP_eq (k := ⟨s.SP.val, hs⟩) rfl nnn).symm.trans h
  exact ⟨_, exec_ret_of_SP_eq_succ (k := ⟨s.SP.val, hs⟩) rfl, by simp, rfl⟩

/-! ### Nested calls -/

theorem execSeq_cons_of_exec {i : Instr} {s t : State} (h : exec i s = .next t) (is : List Instr) :
    execSeq (i :: is) s = execSeq is t := by
  simp only [execSeq, h]

/-- Calls succeed as long as the stack has room for them all. -/
theorem execSeq_calls (targets : List Addr12) (s : State) (h : s.SP.val + targets.length ≤ 16) :
    ∃ t, execSeq (targets.map Instr.call) s = .next t ∧ t.SP.val = s.SP.val + targets.length ∧ t.halted = s.halted := by
  induction targets generalizing s with
  | nil => exact ⟨s, rfl, rfl, rfl⟩
  | cons nnn targets ih =>
    rw [List.length_cons] at h
    obtain ⟨u, hcall, hu, huh⟩ : ∃ u, exec (.call nnn) s = .next u ∧ u.SP.val = s.SP.val + 1 ∧ u.halted = s.halted :=
      ⟨_, exec_call_of_SP_eq (k := ⟨s.SP.val, by omega⟩) rfl nnn, rfl, rfl⟩
    obtain ⟨t, hrun, ht, hth⟩ := ih u (by omega)
    refine ⟨t, (execSeq_cons_of_exec hcall _).trans hrun, ?_, hth.trans huh⟩
    rw [ht, hu, List.length_cons]
    omega

/-- Settles O21: sixteen calls fill an empty stack, and a CALL on a full one raises the error. -/
theorem sixteenNestedCallsSucceed : Obligations.SixteenNestedCallsSucceed := by
  intro s targets hs hlen
  obtain ⟨t, hrun, hsp, hhalt⟩ := execSeq_calls targets s (by simp [hs, hlen])
  have hfull : t.SP = 16 := Fin.ext (by simp [hsp, hs, hlen])
  exact ⟨t, hrun, hfull, hhalt, fun nnn a hpc => exec_call_of_full hfull hpc nnn⟩

end Sys2Proof.Machine
end

section
/-! SUPPORT. Registers and ALU (spec/41_alu.md R68 to R80): the frames of the register writes, the results and flags as numbers,
and the statements assembled from them. -/

namespace Sys2Proof.Machine

/-! ### Frames of the register writes -/

theorem State.setRegs_changesOnly (s : State) (v : Vector Byte 16) : ChangesOnly [.V] s (s.setRegs v) := by
  intro p hp
  cases p
  case V => simp at hp
  all_goals simp [StatePart.Same]

theorem State.setV_changesOnly (s : State) (x : RegIdx) (b : Byte) : ChangesOnly [.V] s (s.setV x b) :=
  s.setRegs_changesOnly _

theorem State.setWithFlag_changesOnly (s : State) (x : RegIdx) (r f : Byte) :
    ChangesOnly [.V] s (s.setWithFlag x r f) :=
  s.setRegs_changesOnly _

theorem State.setLogic_changesOnly (s : State) (x : RegIdx) (r : Byte) : ChangesOnly [.V] s (s.setLogic x r) := by
  rw [State.setLogic_eq]
  exact s.setRegs_changesOnly _

theorem State.countDraw_changesOnly (s : State) : ChangesOnly [.drawIndex] s s.countDraw := by
  intro p hp
  cases p
  case drawIndex => simp at hp
  all_goals simp [StatePart.Same]

/-- A frame may list more parts than it has to. -/
theorem ChangesOnly.mono {ps qs : List StatePart} {s t : State} (h : ChangesOnly ps s t) (hsub : ps ⊆ qs) :
    ChangesOnly qs s t := fun p hp => h p fun hmem => hp (hsub hmem)

theorem State.setV_regsSameExcept (s : State) (x : RegIdx) (b : Byte) : RegsSameExcept [x] s (s.setV x b) :=
  fun _ hk => s.setV_getElem_ne b (List.ne_of_not_mem_cons hk)

theorem State.setWithFlag_regsSameExcept (s : State) (x : RegIdx) (r f : Byte) :
    RegsSameExcept [x, vf] s (s.setWithFlag x r f) :=
  fun k hk => by_contra fun hne => hk (by simpa using State.eq_of_setWithFlag_ne hne)

/-! ### Reading V after a write with a flag -/

/-- VF holds the flag, whatever x is (D13). -/
theorem State.setWithFlag_getElem_vf (s : State) (x : RegIdx) (r f : Byte) : (s.setWithFlag x r f).V[vf] = f := by
  rw [State.setWithFlag_getElem, if_pos rfl]

theorem State.setWithFlag_getElem_self (s : State) {x : RegIdx} (r f : Byte) (h : x ≠ vf) :
    (s.setWithFlag x r f).V[x] = r := by
  rw [State.setWithFlag_getElem, if_neg (Ne.symm h), if_pos rfl]

/-! ### Results and flags as numbers -/

theorem flagByte_decide (p : Prop) [Decidable p] : flagByte (decide p) = if p then 1 else 0 := by
  simp only [flagByte, decide_eq_true_eq]

theorem flagByte_toNat (c : Bool) : (flagByte c).toNat = c.toNat := by
  cases c <;> rfl

/-- The inverted borrow, from the borrow (D39). -/
theorem noBorrowFlag_eq (a b : Byte) : noBorrowFlag a b = if a.toNat < b.toNat then 0 else 1 := by
  rw [noBorrowFlag, flagByte_decide]
  simp only [ge_iff_le, ← not_lt, ite_not]

theorem shiftedOutRight_toNat (b : Byte) : (shiftedOutRight b).toNat = b.toNat % 2 := by
  rw [shiftedOutRight, flagByte_toNat, BitVec.getLsbD, Nat.testBit_zero]
  rcases Nat.mod_two_eq_zero_or_one b.toNat with h | h <;> simp [h]

theorem shiftedOutLeft_toNat (b : Byte) : (shiftedOutLeft b).toNat = b.toNat / 128 := by
  have hmsb : b.getLsbD 7 = decide (128 ≤ b.toNat) := b.msb_eq_getLsbD_last.symm.trans b.msb_eq_decide
  rw [shiftedOutLeft, flagByte_toNat, hmsb]
  by_cases h : 128 ≤ b.toNat
  · simp only [h, decide_true, Bool.toNat_true]; omega
  · simp only [h, decide_false, Bool.toNat_false]; omega

/-- The difference modulo 256 of R75 and R77, as an integer. -/
theorem sub_toNat_eq_emod (a b : Byte) : ((a - b).toNat : Int) = ((a.toNat : Int) - b.toNat) % 256 := by
  rw [BitVec.toNat_sub]
  omega

theorem shiftRight_one_toNat (b : Byte) : (b >>> 1).toNat = b.toNat / 2 := by
  rw [BitVec.toNat_ushiftRight, Nat.shiftRight_eq_div_pow, pow_one]

theorem shiftLeft_one_toNat (b : Byte) : (b <<< 1).toNat = b.toNat * 2 % 256 := by
  rw [BitVec.toNat_shiftLeft, Nat.shiftLeft_eq, pow_one]

/-- The source of a shift, for either value of SHIFT_SOURCE (D1). -/
theorem State.shiftOperand_eq {s : State} {x y src : RegIdx}
    (h : (s.cfg.shiftSource = .vx ∧ src = x) ∨ (s.cfg.shiftSource = .vy ∧ src = y)) :
    s.shiftOperand x y = s.V[src] := by
  unfold State.shiftOperand
  rcases h with ⟨hsrc, rfl⟩ | ⟨hsrc, rfl⟩ <;> rw [hsrc] <;> rfl

/-! ### Loads, copies and RND -/

/-- Settles O25: one write of Vx. -/
theorem loadImmediate : Obligations.LoadImmediate := fun x kk s =>
  ⟨decodeWord_of_isWordOf rfl rfl, _, rfl, s.setV_getElem_self x kk, s.setV_regsSameExcept x kk, s.setV_changesOnly x kk⟩

/-- Settles O26: one write of Vx, the 8-bit sum. -/
theorem addImmediateWrapsWithoutFlag : Obligations.AddImmediateWrapsWithoutFlag := by
  intro x kk s
  refine ⟨decodeWord_of_isWordOf rfl rfl, _, rfl, ?_, s.setV_regsSameExcept x _, s.setV_changesOnly x _⟩
  rw [State.setV_getElem_self]
  exact BitVec.toNat_add ..

/-- Settles O27: one write of Vx. -/
theorem copyRegister : Obligations.CopyRegister := fun x _ s =>
  ⟨decodeWord_of_isWordOf rfl rfl, _, rfl, s.setV_getElem_self x _, s.setV_regsSameExcept x _, s.setV_changesOnly x _⟩

/-- Settles O32: the write of Vx, then the count of the draw. -/
theorem randomIsMasked : Obligations.RandomIsMasked := by
  intro x kk s
  have hV := s.setV_getElem_self x (Config.drawByte s.drawIndex &&& kk)
  refine ⟨decodeWord_of_isWordOf rfl rfl, _, rfl, hV, fun hkk => ?_, rfl, s.setV_regsSameExcept x _, ?_⟩
  · rw [State.countDraw_V, hV, hkk]
    exact BitVec.and_zero
  · exact ((s.setV_changesOnly x _).mono (by simp)).trans ((State.countDraw_changesOnly _).mono (by simp))

/-! ### OR, AND and XOR -/

/-- A logic instruction writes, by `setLogic`, the byte that its bit operation gives. -/
theorem exec_logic {i : Instr} {f : Bool → Bool → Bool} {x y : RegIdx} (s : State)
    (h : (i = .or x y ∧ f = (fun p q => p || q)) ∨ (i = .and x y ∧ f = (fun p q => p && q)) ∨
      (i = .xor x y ∧ f = (fun p q => p != q))) :
    ∃ r : Byte, exec i s = .next (s.setLogic x r) ∧ ∀ b, r.getLsbD b = f (s.V[x].getLsbD b) (s.V[y].getLsbD b) := by
  rcases h with ⟨rfl, rfl⟩ | ⟨rfl, rfl⟩ | ⟨rfl, rfl⟩
  · exact ⟨_, rfl, fun _ => BitVec.getLsbD_or⟩
  · exact ⟨_, rfl, fun _ => BitVec.getLsbD_and⟩
  · exact ⟨_, rfl, fun _ => BitVec.getLsbD_xor⟩

theorem State.setLogic_of_resets {s : State} (h : s.cfg.logicResetsVf = true) (x : RegIdx) (r : Byte) :
    s.setLogic x r = s.setWithFlag x r 0 :=
  if_pos h

theorem State.setLogic_of_keeps {s : State} (h : s.cfg.logicResetsVf = false) (x : RegIdx) (r : Byte) :
    s.setLogic x r = s.setV x r :=
  if_neg (by simp [h])

/-- Vx holds the result of a logic operation, unless the reset of VF overwrites it. -/
theorem State.setLogic_getElem_self {s : State} {x : RegIdx} (r : Byte) (h : x ≠ vf ∨ s.cfg.logicResetsVf = false) :
    (s.setLogic x r).V[x] = r := by
  rw [State.setLogic_getElem, if_neg, if_pos rfl]
  rintro ⟨hreset, hx⟩
  rcases h with hne | hkeep
  · exact hne hx.symm
  · simp [hreset] at hkeep

/-- Settles O28: the three instructions at once, for either value of LOGIC_RESETS_VF. -/
theorem logicOperations : Obligations.LogicOperations := by
  intro x y s
  refine ⟨decodeWord_of_isWordOf rfl rfl, decodeWord_of_isWordOf rfl rfl, decodeWord_of_isWordOf rfl rfl,
    fun i f hi => ?_⟩
  obtain ⟨r, hexec, hbits⟩ := exec_logic s hi
  refine ⟨_, hexec, s.setLogic_changesOnly x r, fun hreset => ?_, fun hkeep => ?_, fun hx b _ => ?_⟩
  · rw [State.setLogic_of_resets hreset]
    exact ⟨s.setWithFlag_getElem_vf x r 0, s.setWithFlag_regsSameExcept x r 0⟩
  · rw [State.setLogic_of_keeps hkeep]
    exact s.setV_regsSameExcept x r
  · rw [State.setLogic_getElem_self r hx]
    exact hbits b

/-! ### The instructions with a flag -/

/-- What R74 to R78 share: a result that `P` describes in Vx, unless VF is x, and a flag that `Q` describes in VF (D13). -/
theorem State.setWithFlag_spec {P Q : Byte → Prop} {s : State} {x : RegIdx} {r f : Byte} (hr : P r) (hf : Q f) :
    (x ≠ vf → P (s.setWithFlag x r f).V[x]) ∧ Q (s.setWithFlag x r f).V[vf] ∧
      RegsSameExcept [x, vf] s (s.setWithFlag x r f) ∧ ChangesOnly [.V] s (s.setWithFlag x r f) := by
  refine ⟨fun hx => ?_, ?_, s.setWithFlag_regsSameExcept x r f, s.setWithFlag_changesOnly x r f⟩
  · rwa [s.setWithFlag_getElem_self r f hx]
  · rwa [State.setWithFlag_getElem_vf]

/-- Settles O29. -/
theorem addSetsCarry : Obligations.AddSetsCarry := fun x y s =>
  ⟨decodeWord_of_isWordOf rfl rfl, _, rfl,
    State.setWithFlag_spec (P := fun r => r.toNat = (s.V[x].toNat + s.V[y].toNat) % 256)
      (Q := fun f => f = if s.V[x].toNat + s.V[y].toNat > 0xFF then 1 else 0)
      (BitVec.toNat_add ..) (flagByte_decide _)⟩

/-- A subtraction `a - b` with its flag, written to Vx and VF (R75, R77). -/
theorem State.setWithFlag_sub (s : State) (x : RegIdx) (a b : Byte) :
    let t := s.setWithFlag x (a - b) (noBorrowFlag a b)
    (x ≠ vf → (t.V[x].toNat : Int) = ((a.toNat : Int) - b.toNat) % 256) ∧
      t.V[vf] = (if a.toNat < b.toNat then 0 else 1) ∧ RegsSameExcept [x, vf] s t ∧ ChangesOnly [.V] s t :=
  State.setWithFlag_spec (P := fun r => (r.toNat : Int) = ((a.toNat : Int) - b.toNat) % 256)
    (Q := fun f => f = if a.toNat < b.toNat then 0 else 1) (sub_toNat_eq_emod a b) (noBorrowFlag_eq a b)

/-- Settles O30: SUB and SUBN are one subtraction with the operands either way round. -/
theorem subtractSetsNoBorrow : Obligations.SubtractSetsNoBorrow := fun x y s =>
  ⟨decodeWord_of_isWordOf rfl rfl, decodeWord_of_isWordOf rfl rfl,
    ⟨_, rfl, s.setWithFlag_sub x s.V[x] s.V[y]⟩, ⟨_, rfl, s.setWithFlag_sub x s.V[y] s.V[x]⟩⟩

/-- Settles O31: both shifts of the source, whichever register it is. -/
theorem shiftsCaptureTheBitShiftedOut : Obligations.ShiftsCaptureTheBitShiftedOut := by
  intro x y src s hsrc
  have hop := State.shiftOperand_eq hsrc
  refine ⟨decodeWord_of_isWordOf rfl rfl, decodeWord_of_isWordOf rfl rfl, ⟨_, rfl, ?_⟩, ⟨_, rfl, ?_⟩⟩ <;> rw [hop]
  · exact State.setWithFlag_spec (P := fun r => r.toNat = s.V[src].toNat / 2)
      (Q := fun f => f.toNat = s.V[src].toNat % 2) (shiftRight_one_toNat _) (shiftedOutRight_toNat _)
  · exact State.setWithFlag_spec (P := fun r => r.toNat = s.V[src].toNat * 2 % 256)
      (Q := fun f => f.toNat = s.V[src].toNat / 128) (shiftLeft_one_toNat _) (shiftedOutLeft_toNat _)

end Sys2Proof.Machine
end

section
/-! SUPPORT. Display (spec/42_display.md R81 to R84). `FlipsExactly` says what a part of the loop of R83 does: it flips a set of
pixels, once each, and notes a collision. Parts that flip disjoint sets compose, so the statement goes from one pixel to a row,
to the rows of a sprite, and to DRW. -/

namespace Sys2Proof.Machine

/-! ### What a part of the loop does -/

/-- From `a` to `b`, framebuffer and collision, exactly the pixels of `C` are flipped, and the collision is noted exactly when
some pixel of `C` was set. -/
def FlipsExactly (C : Fin 32 → Fin 64 → Prop) (a b : Framebuffer × Bool) : Prop :=
  (∀ y x, b.1.pixel y x ≠ a.1.pixel y x ↔ C y x) ∧
  (b.2 = true ↔ a.2 = true ∨ ∃ y x, C y x ∧ a.1.pixel y x = true)

theorem FlipsExactly.congr {C D : Fin 32 → Fin 64 → Prop} {a b : Framebuffer × Bool} (h : FlipsExactly C a b)
    (hCD : ∀ y x, C y x ↔ D y x) : FlipsExactly D a b := by
  rwa [← show C = D from funext₂ fun y x => propext (hCD y x)]

theorem flipsExactly_refl (a : Framebuffer × Bool) : FlipsExactly (fun _ _ => False) a a := by
  simp [FlipsExactly]

/-- The second part sees every pixel it flips as it was before the first. -/
theorem FlipsExactly.trans {C D : Fin 32 → Fin 64 → Prop} {a b c : Framebuffer × Bool} (hab : FlipsExactly C a b)
    (hbc : FlipsExactly D b c) (hdisj : ∀ y x, C y x → ¬ D y x) : FlipsExactly (fun y x => C y x ∨ D y x) a c := by
  obtain ⟨hC, hab⟩ := hab
  obtain ⟨hD, hbc⟩ := hbc
  have hsame : ∀ y x, D y x → b.1.pixel y x = a.1.pixel y x := fun y x hd =>
    by_contra fun hne => hdisj y x ((hC y x).mp hne) hd
  refine ⟨fun y x => ?_, ?_⟩
  · show _ ↔ C y x ∨ D y x
    have hdisj := hdisj y x
    rw [← hC, ← hD] at hdisj ⊢
    revert hdisj
    cases a.1.pixel y x <;> cases b.1.pixel y x <;> cases c.1.pixel y x <;> decide
  · have hset : (∃ y x, D y x ∧ b.1.pixel y x = true) ↔ ∃ y x, D y x ∧ a.1.pixel y x = true :=
      exists₂_congr fun y x => and_congr_right fun hd => by rw [hsame y x hd]
    simp only [hbc, hab, hset, or_and_right, exists_or, or_assoc]

/-! ### One pixel -/

/-- A 1 bit drawn at column `px` and row `py` falls on pixel (x, y): clipped or wrapped, as DRAW_EDGE says (D5). -/
def FallsOn (edge : DrawEdge) (px py : Nat) (y : Fin 32) (x : Fin 64) : Prop :=
  match edge with
  | .clip => px = x.val ∧ py = y.val
  | .wrap => px % 64 = x.val ∧ py % 32 = y.val

theorem spriteCovers_iff {edge : DrawEdge} {x0 y0 n : Nat} {row : Nat → Byte} {y : Fin 32} {x : Fin 64} :
    SpriteCovers edge x0 y0 n row y x ↔
      ∃ r c, r < n ∧ c < 8 ∧ spriteBit (row r) c = true ∧ FallsOn edge (x0 + c) (y0 + r) y x := by
  cases edge <;> rfl

theorem fallsOn_iff {edge : DrawEdge} {px py : Nat} {y : Fin 32} {x : Fin 64} :
    FallsOn edge px py y x ↔
      ¬(edge = .clip ∧ (px > 63 ∨ py > 31)) ∧ y = Fin.ofNat 32 py ∧ x = Fin.ofNat 64 px := by
  have hx := x.isLt
  have hy := y.isLt
  simp only [Fin.ext_iff, Fin.ofNat]
  cases edge
  · simp only [FallsOn, true_and]
    omega
  · simp only [FallsOn, reduceCtorEq, false_and, not_false_eq_true, true_and]
    omega

/-- Two bits of one row, or of two rows less than 32 apart, never fall on the same pixel. -/
theorem FallsOn.col_inj {edge : DrawEdge} {x0 c c' py py' : Nat} {y : Fin 32} {x : Fin 64}
    (h : FallsOn edge (x0 + c) py y x) (h' : FallsOn edge (x0 + c') py' y x) (hc : c < 8) (hc' : c' < 8) : c = c' := by
  cases edge <;> simp only [FallsOn] at h h' <;> omega

theorem FallsOn.row_inj {edge : DrawEdge} {px px' y0 r r' : Nat} {y : Fin 32} {x : Fin 64}
    (h : FallsOn edge px (y0 + r) y x) (h' : FallsOn edge px' (y0 + r') y x) (hr : r < 32) (hr' : r' < 32) : r = r' := by
  cases edge <;> simp only [FallsOn] at h h' <;> omega

theorem flipsExactly_flip (a : Framebuffer × Bool) (y : Fin 32) (x : Fin 64) :
    FlipsExactly (fun y' x' => y' = y ∧ x' = x) a (a.1.flip y x, a.2 || a.1.pixel y x) := by
  refine ⟨fun y' x' => ?_, ?_⟩
  · rw [Framebuffer.pixel_flip]
    split <;> simp [*]
  · simp [and_assoc]

theorem blendPixel_flipsExactly (edge : DrawEdge) (px py : Nat) (a : Framebuffer × Bool) :
    FlipsExactly (FallsOn edge px py) a (blendPixel edge px py a) := by
  rcases blendPixel_cases edge px py a with ⟨hclip, hb⟩ | ⟨hin, hb⟩ <;> rw [hb]
  · exact (flipsExactly_refl a).congr fun y x => by simp [fallsOn_iff, hclip]
  · exact (flipsExactly_flip a _ _).congr fun y x => by simp only [fallsOn_iff, hin, not_false_eq_true, true_and]

/-! ### Rows -/

/-- The bits of a row byte at the columns `cs` cover pixel (x, y). -/
def ColsCover (edge : DrawEdge) (x0 py : Nat) (row : Byte) (cs : List Nat) (y : Fin 32) (x : Fin 64) : Prop :=
  ∃ c ∈ cs, spriteBit row c = true ∧ FallsOn edge (x0 + c) py y x

theorem blendBit_flipsExactly (edge : DrawEdge) (x0 py : Nat) (row : Byte) (c : Nat) (a : Framebuffer × Bool) :
    FlipsExactly (fun y x => spriteBit row c = true ∧ FallsOn edge (x0 + c) py y x) a
      (if spriteBit row c then blendPixel edge (x0 + c) py a else a) := by
  split
  · exact (blendPixel_flipsExactly edge (x0 + c) py a).congr fun y x => by simp [*]
  · exact (flipsExactly_refl a).congr fun y x => by simp [*]

/-- The inner loop over any distinct columns. -/
theorem foldl_blendBit_flipsExactly (edge : DrawEdge) (x0 py : Nat) (row : Byte) (cs : List Nat) (hnd : cs.Nodup)
    (hcs : ∀ c ∈ cs, c < 8) (a : Framebuffer × Bool) :
    FlipsExactly (ColsCover edge x0 py row cs) a
      (cs.foldl (fun acc c => if spriteBit row c then blendPixel edge (x0 + c) py acc else acc) a) := by
  induction cs generalizing a with
  | nil => exact (flipsExactly_refl a).congr fun y x => by simp [ColsCover]
  | cons c cs ih =>
    obtain ⟨hc, hnd⟩ := List.nodup_cons.mp hnd
    obtain ⟨hlt, hcs⟩ := List.forall_mem_cons.mp hcs
    refine ((blendBit_flipsExactly edge x0 py row c a).trans (ih hnd hcs _) ?_).congr fun y x => ?_
    · rintro y x ⟨-, h⟩ ⟨c', hmem, -, h'⟩
      exact hc (h.col_inj h' hlt (hcs c' hmem) ▸ hmem)
    · simp only [ColsCover, List.mem_cons, exists_eq_or_imp]

theorem blendRow_flipsExactly (edge : DrawEdge) (x0 py : Nat) (row : Byte) (a : Framebuffer × Bool) :
    FlipsExactly (ColsCover edge x0 py row (List.range 8)) a (blendRow edge x0 py row a) :=
  foldl_blendBit_flipsExactly edge x0 py row _ List.nodup_range (fun _ => List.mem_range.mp) a

/-- A sprite of at least one row covers what its first row covers and what the rows below cover. -/
theorem spriteCovers_succ {edge : DrawEdge} {x0 y0 n : Nat} {row : Nat → Byte} {y : Fin 32} {x : Fin 64} :
    SpriteCovers edge x0 y0 (n + 1) row y x ↔
      ColsCover edge x0 y0 (row 0) (List.range 8) y x ∨ SpriteCovers edge x0 (y0 + 1) n (fun r => row (r + 1)) y x := by
  simp only [spriteCovers_iff, ColsCover, List.mem_range]
  constructor
  · rintro ⟨_ | r, c, hr, hc, hbit, hon⟩
    · exact .inl ⟨c, hc, hbit, hon⟩
    · exact .inr ⟨r, c, Nat.lt_of_succ_lt_succ hr, hc, hbit, by rwa [Nat.add_assoc, Nat.add_comm 1]⟩
  · rintro (⟨c, hc, hbit, hon⟩ | ⟨r, c, hr, hc, hbit, hon⟩)
    · exact ⟨0, c, Nat.succ_pos n, hc, hbit, hon⟩
    · exact ⟨r + 1, c, Nat.succ_lt_succ hr, hc, hbit, by rwa [Nat.add_comm r, ← Nat.add_assoc]⟩

/-- The outer loop: at most 32 rows, so that no two of them wrap onto each other. -/
theorem blendRows_flipsExactly (edge : DrawEdge) (x0 y0 : Nat) (rows : List Byte) (hlen : rows.length ≤ 32)
    (a : Framebuffer × Bool) :
    FlipsExactly (SpriteCovers edge x0 y0 rows.length (fun r => rows.getD r 0)) a (blendRows edge x0 y0 rows a) := by
  induction rows generalizing y0 a with
  | nil => exact (flipsExactly_refl a).congr fun y x => by simp [SpriteCovers]
  | cons row rows ih =>
    rw [List.length_cons] at hlen
    refine ((blendRow_flipsExactly edge x0 y0 row a).trans (ih (y0 + 1) (by omega) _) ?_).congr fun y x =>
      (spriteCovers_succ (row := fun r => (row :: rows).getD r 0)).symm
    rintro y x ⟨c, -, -, h⟩ hbelow
    obtain ⟨r, c', hr, -, -, h'⟩ := spriteCovers_iff.mp hbelow
    rw [Nat.add_assoc] at h'
    have heq : 0 = 1 + r := h.row_inj h' (by omega) (by omega)
    omega

theorem blendSprite_flipsExactly (edge : DrawEdge) (fb : Framebuffer) (x0 y0 : Nat) (rows : List Byte)
    (hlen : rows.length ≤ 32) :
    FlipsExactly (SpriteCovers edge x0 y0 rows.length (fun r => rows.getD r 0)) (fb, false)
      (blendSprite edge fb x0 y0 rows) :=
  blendRows_flipsExactly edge x0 y0 rows hlen (fb, false)

/-- From no collision, one is noted exactly when a covered pixel was set. -/
theorem FlipsExactly.collision_iff {C : Fin 32 → Fin 64 → Prop} {fb : Framebuffer} {b : Framebuffer × Bool}
    (h : FlipsExactly C (fb, false) b) : b.2 = true ↔ ∃ y x, C y x ∧ fb.pixel y x = true := by
  obtain ⟨-, hcol⟩ := h
  simpa using hcol

/-- Settles O34: the bounds on x0 and y0 are not needed, and 15 rows are fewer than 32. -/
theorem blendFlipsExactlyTheCoveredPixels : Obligations.BlendFlipsExactlyTheCoveredPixels := by
  intro edge fb x0 y0 rows _ _ hlen
  have h := blendSprite_flipsExactly edge fb x0 y0 rows (by omega)
  have ⟨hpix, _⟩ := h
  exact ⟨hpix, h.collision_iff⟩

/-! ### DRW -/

/-- The pixels that `DRW Vx, Vy, n` covers, run from `s` (R84). -/
def State.DrwCovers (s : State) (x y : RegIdx) (n : Fin 16) : Fin 32 → Fin 64 → Prop :=
  SpriteCovers s.cfg.drawEdge ((s.V[x]).toNat % 64) ((s.V[y]).toNat % 32) n.val
    (fun r => s.mem.readByte (s.I.toNat + r))

/-- Only the rows of the sprite decide what it covers. -/
theorem spriteCovers_congr {edge : DrawEdge} {x0 y0 n : Nat} {row row' : Nat → Byte} (h : ∀ r < n, row r = row' r)
    (y : Fin 32) (x : Fin 64) : SpriteCovers edge x0 y0 n row y x ↔ SpriteCovers edge x0 y0 n row' y x := by
  refine exists₂_congr fun r c => and_congr_right fun hr => ?_
  rw [h r hr]

/-- The rows in range, for n = 0 too (D6). -/
theorem State.spriteRows_eq_ok {s : State} {n : Fin 16} (h : n.val = 0 ∨ s.I.toNat + n.val - 1 ≤ 0xFFF) :
    s.spriteRows n = .ok (s.mem.readBytes s.I.toNat n.val) := by
  rcases s.spriteRows_cases n with ⟨rfl, hr⟩ | ⟨hn, hlt, -⟩ | ⟨-, -, hr⟩
  · exact hr
  · have hn : n.val ≠ 0 := fun h0 => hn (Fin.ext h0)
    omega
  · exact hr

/-- DRW in range: the blend of the covered pixels, and its collision in VF. -/
theorem exec_drw_of_inRange {x y : RegIdx} {n : Fin 16} {s : State}
    (h : n.val = 0 ∨ s.I.toNat + n.val - 1 ≤ 0xFFF) :
    ∃ b, FlipsExactly (s.DrwCovers x y n) (s.FB, false) b ∧
      exec (.drw x y n) s = .next ((s.setFB b.1).setV vf (flagByte b.2)) := by
  refine ⟨_, ?_, exec_of_completes ⟨_, _, State.spriteRows_eq_ok h, rfl, rfl⟩⟩
  have hblend := blendSprite_flipsExactly s.cfg.drawEdge s.FB (s.V[x].toNat % 64) (s.V[y].toNat % 32)
    (s.mem.readBytes s.I.toNat n.val) (by rw [Memory.readBytes_length]; omega)
  rw [Memory.readBytes_length] at hblend
  refine hblend.congr (spriteCovers_congr fun r hr => ?_)
  rw [← List.getElem_eq_getD (h := by simpa using hr), Memory.readBytes_getElem]

theorem State.setFB_changesOnly (s : State) (fb : Framebuffer) : ChangesOnly [.FB] s (s.setFB fb) := by
  intro p hp
  cases p
  case FB => simp at hp
  all_goals simp [StatePart.Same]

theorem flagByte_eq_one_iff (c : Bool) : flagByte c = 1 ↔ c = true := by
  cases c <;> decide

/-- Settles O35: in range the blend of `exec_drw_of_inRange`, whose covered pixels are the flipped ones, and else the error. -/
theorem drwDrawsTheSpriteAtI : Obligations.DrwDrawsTheSpriteAtI := by
  intro x y n s
  refine ⟨decodeWord_of_isWordOf rfl rfl, fun hr => ?_, fun hn hr => ?_⟩
  · obtain ⟨b, hb, hexec⟩ := exec_drw_of_inRange (x := x) (y := y) hr
    have ⟨hpix, _⟩ := hb
    refine ⟨_, hexec, hpix, ?_, ?_, fun k hk => (s.setFB b.1).setV_regsSameExcept vf _ k hk, ?_⟩
    · rw [State.setV_getElem_self]
      exact flagByte_eq_zero_or_one _
    · rw [State.setV_getElem_self, flagByte_eq_one_iff, hb.collision_iff]
      exact exists₂_congr fun py px => and_congr_left fun _ => (hpix py px).symm
    · exact ((s.setFB_changesOnly _).mono (by simp)).trans ((State.setV_changesOnly _ vf _).mono (by simp))
  · exact exec_of_raises ⟨fun h0 => hn (congrArg Fin.val h0), by omega, rfl⟩

/-! ### Drawing twice -/

theorem FlipsExactly.twice_restores {C : Fin 32 → Fin 64 → Prop} {a b c d : Framebuffer × Bool}
    (hab : FlipsExactly C a b) (hcd : FlipsExactly C c d) (hbc : c.1 = b.1) (y : Fin 32) (x : Fin 64) :
    d.1.pixel y x = a.1.pixel y x := by
  obtain ⟨hab, -⟩ := hab
  obtain ⟨hcd, -⟩ := hcd
  have hiff := (hcd y x).trans (hab y x).symm
  rw [hbc] at hiff
  revert hiff
  cases a.1.pixel y x <;> cases b.1.pixel y x <;> cases d.1.pixel y x <;> decide

/-- The covered pixels that are set after the flip are those that the flip set. -/
theorem FlipsExactly.covered_set_iff {C : Fin 32 → Fin 64 → Prop} {a b : Framebuffer × Bool} (h : FlipsExactly C a b)
    (y : Fin 32) (x : Fin 64) : C y x ∧ b.1.pixel y x = true ↔ a.1.pixel y x = false ∧ b.1.pixel y x = true := by
  obtain ⟨h, -⟩ := h
  rw [← h y x]
  cases a.1.pixel y x <;> cases b.1.pixel y x <;> decide

/-- Settles O36: the second draw covers the same pixels, VF at most apart, so it flips them back. -/
theorem drawingTwiceErases : Obligations.DrawingTwiceErases := by
  intro x y n s t u hr hst hx hy htu
  obtain ⟨b, hb, hexec⟩ := exec_drw_of_inRange (x := x) (y := y) hr
  cases hexec.symm.trans hst
  obtain ⟨d, hd, hexec'⟩ := exec_drw_of_inRange (x := x) (y := y) (s := (s.setFB b.1).setV vf (flagByte b.2)) hr
  cases hexec'.symm.trans htu
  have hsame : ((s.setFB b.1).setV vf (flagByte b.2)).DrwCovers x y n = s.DrwCovers x y n := by
    simp only [State.DrwCovers, hx, hy]; rfl
  rw [hsame] at hd
  refine ⟨hb.twice_restores hd rfl, ?_⟩
  rw [State.setV_getElem_self, flagByte_eq_one_iff, hd.collision_iff]
  exact exists₂_congr hb.covered_set_iff

/-! ### CLS -/

/-- Settles O33: CLS is one write of the framebuffer. -/
theorem clsClearsEveryPixel : Obligations.ClsClearsEveryPixel :=
  ⟨rfl, fun s => ⟨_, rfl, Framebuffer.pixel_clear, s.setFB_changesOnly _⟩⟩

end Sys2Proof.Machine
end

section
/-! SUPPORT. Index register and memory (spec/43_index_memory.md R85 to R92): what a write of I changes, the numbers that the index
instructions compute, what a register block leaves in memory and in V, and the statements assembled from them. -/

namespace Sys2Proof.Machine

/-! ### Writes of I -/

theorem State.setI_changesOnly (s : State) (w : Word) : ChangesOnly [.I] s (s.setI w) := by
  intro p hp
  cases p
  case I => simp at hp
  all_goals simp [StatePart.Same]

theorem State.moveIndex_changesOnly (s : State) (x : RegIdx) : ChangesOnly [.I] s (s.moveIndex x) := by
  rw [State.moveIndex_eq]
  exact s.setI_changesOnly _

/-- I after a block store or load, for either value of LOADSTORE_INCREMENTS_I (D3). -/
theorem State.moveIndex_I_toNat (s : State) (x : RegIdx) :
    (s.moveIndex x).I.toNat =
      if s.cfg.loadStoreIncrementsI = true then (s.I.toNat + x.val + 1) % 65536 else s.I.toNat := by
  rw [State.moveIndex_eq, State.setI_I, apply_ite BitVec.toNat, BitVec.toNat_ofNat]

@[simp] theorem State.moveIndex_mem (s : State) (x : RegIdx) : (s.moveIndex x).mem = s.mem := by
  rw [State.moveIndex_eq, State.setI_mem]

@[simp] theorem State.moveIndex_V (s : State) (x : RegIdx) : (s.moveIndex x).V = s.V := by
  rw [State.moveIndex_eq, State.setI_V]

/-! ### LD I, ADD I and LD F -/

/-- Settles O37: one write of I. -/
theorem loadIndex : Obligations.LoadIndex := fun nnn s =>
  ⟨decodeWord_of_isWordOf rfl rfl, _, rfl, zext16_toNat nnn, s.setI_changesOnly _⟩

/-- The number that each value of ADDI_OVERFLOW_LIMIT stands for (D7). -/
theorem addiLimit_eq {l : AddiLimit} {limit : Nat}
    (h : (l = .addressSpace ∧ limit = 0x0FFF) ∨ (l = .indexWidth ∧ limit = 0xFFFF)) : addiLimit l = limit := by
  rcases h with ⟨rfl, rfl⟩ | ⟨rfl, rfl⟩ <;> rfl

theorem toNat_add_zextByte (w : Word) (b : Byte) : (w + zextByte b).toNat = (w.toNat + b.toNat) % 65536 := by
  rw [BitVec.toNat_add, zextByte_toNat]

/-- Settles O38: the write of I, then the flag in VF; both read the I and Vx from before. -/
theorem addToIndexSetsOverflow : Obligations.AddToIndexSetsOverflow := by
  intro x s limit hlimit
  refine ⟨decodeWord_of_isWordOf rfl rfl, _, rfl, toNat_add_zextByte s.I s.V[x], ?_,
    (s.setI _).setV_regsSameExcept vf _, ?_⟩
  · rw [State.setV_getElem_self, ← addiLimit_eq hlimit]
    exact flagByte_decide _
  · exact ((s.setI_changesOnly _).mono (by simp)).trans ((State.setV_changesOnly _ vf _).mono (by simp))

theorem State.fontDigit_of_mask {s : State} (h : s.cfg.fontDigitPolicy = .mask) (x : RegIdx) :
    s.fontDigit x = s.V[x].toNat % 16 := by
  simp only [State.fontDigit, h, State.reg]

theorem State.fontDigit_of_unmasked {s : State} (h : s.cfg.fontDigitPolicy = .unmasked) (x : RegIdx) :
    s.fontDigit x = s.V[x].toNat := by
  simp only [State.fontDigit, h, State.reg]

/-- A glyph address, at most 432 + 5 * 255, needs no more than 16 bits. -/
theorem glyphAddress_toNat (base : Fin 433) {d : Nat} (hd : d < 256) :
    (BitVec.ofNat 16 (base.val + 5 * d)).toNat = base.val + 5 * d :=
  (BitVec.toNat_ofNat _ _).trans (Nat.mod_eq_of_lt (by omega))

/-- Settles O39: one write of I, the address of the glyph of the digit that each FONT_DIGIT_POLICY gives. -/
theorem loadFontAddress : Obligations.LoadFontAddress := by
  intro x s
  refine ⟨decodeWord_of_isWordOf rfl rfl, _, rfl, s.setI_changesOnly _, fun hp => ?_, fun hp => ?_⟩
  · rw [State.setI_I, State.fontDigit_of_mask hp, glyphAddress_toNat _ (by omega)]
  · rw [State.setI_I, State.fontDigit_of_unmasked hp, glyphAddress_toNat _ (BitVec.isLt _)]

/-! ### LD B -/

/-- The three bytes that R90 writes: hundreds, tens and units. -/
theorem Memory.readByte_writeBytes_bcdDigits (m : Memory) (a : Nat) (v : Byte) :
    let m' := m.writeBytes a (bcdDigits v)
    (m'.readByte a).toNat = v.toNat / 100 ∧ (m'.readByte (a + 1)).toNat = v.toNat / 10 % 10 ∧
      (m'.readByte (a + 2)).toNat = v.toNat % 10 := by
  have hbyte (k : Fin 3) {n : Nat} (hn : n < 256) (hb : (bcdDigits v)[k.val]'k.isLt = BitVec.ofNat 8 n) :
      ((m.writeBytes a (bcdDigits v)).readByte (a + k.val)).toNat = n := by
    rw [Memory.readByte_writeBytes_inside m a k.isLt, hb, BitVec.toNat_ofNat, Nat.mod_eq_of_lt hn]
  exact ⟨hbyte 0 (by omega) rfl, hbyte 1 (by omega) rfl, hbyte 2 (by omega) rfl⟩

/-- Settles O40: one block write of the three digits, or the error. -/
theorem storeBcdDigits : Obligations.StoreBcdDigits := by
  intro x s
  refine ⟨decodeWord_of_isWordOf rfl rfl, fun hr => ?_, fun hr => exec_of_raises ⟨hr, rfl⟩⟩
  obtain ⟨hhundreds, htens, hunits⟩ := s.mem.readByte_writeBytes_bcdDigits s.I.toNat s.V[x]
  refine ⟨_, _, _, _, exec_of_completes ⟨hr, rfl⟩, s.setMem_changesOnly _, ?_, ?_, ?_, ?_, hhundreds, htens, hunits,
    fun a ha => Memory.readByte_writeBytes_outside s.mem (by rw [bcdDigits_length]; omega)⟩
  all_goals omega

/-! ### Register blocks -/

/-- Settles O41: one block write of V0 to Vx and the move of I, or the error. -/
theorem storeRegisterBlock : Obligations.StoreRegisterBlock := by
  intro x s
  refine ⟨decodeWord_of_isWordOf rfl rfl, fun hr => ?_, fun hr => exec_of_raises ⟨hr, rfl⟩⟩
  have hexec := exec_of_completes (i := .storeRegs x) ⟨hr, rfl⟩
  refine ⟨_, hexec, ?_, fun k hk => readByte_of_exec_storeRegs hexec hr hk, fun a ha => ?_, State.moveIndex_I_toNat _ x⟩
  · exact ((s.setMem_changesOnly _).mono (by simp)).trans ((State.moveIndex_changesOnly _ x).mono (by simp))
  · rw [State.moveIndex_mem]
    exact Memory.readByte_writeBytes_outside s.mem (by rw [State.regBlock_length]; omega)

/-- The registers a block load in range leaves (R92). -/
theorem getElem_V_of_exec_loadRegs {x : RegIdx} {s t : State} (h : exec (.loadRegs x) s = .next t)
    (hr : s.I.toNat + x.val ≤ 0xFFF) (k : RegIdx) :
    t.V[k] = if k ≤ x then s.mem.readByte (s.I.toNat + k.val) else s.V[k] := by
  rcases exec_next_iff.mp h with ⟨-, rfl⟩ | ⟨e, ⟨hlt, -⟩, -⟩
  · rw [State.moveIndex_V, State.setRegs_V, Fin.getElem_fin, loadBlock_getElem]
    simp only [Fin.le_def]
    by_cases hk : k.val ≤ x.val
    · rw [if_pos hk, dif_pos (by rw [Memory.readBytes_length]; omega), Memory.readBytes_getElem, Nat.sub_zero]
    · rw [if_neg hk, dif_neg (by rw [Memory.readBytes_length]; omega), Fin.getElem_fin]
  · omega

/-- Settles O42: one block read into V0 to Vx and the move of I, or the error. -/
theorem loadRegisterBlock : Obligations.LoadRegisterBlock := by
  intro x s
  refine ⟨decodeWord_of_isWordOf rfl rfl, fun hr => ?_, fun hr => exec_of_raises ⟨hr, rfl⟩⟩
  have hexec := exec_of_completes (i := .loadRegs x) ⟨hr, rfl⟩
  refine ⟨_, hexec, ?_, getElem_V_of_exec_loadRegs hexec hr, State.moveIndex_I_toNat _ x⟩
  exact ((s.setRegs_changesOnly _).mono (by simp)).trans ((State.moveIndex_changesOnly _ x).mono (by simp))

/-- Settles O43: the load takes each register of the block from the byte that the store put its value in. -/
theorem loadUndoesStore : Obligations.LoadUndoesStore := by
  intro x s t v hr hstore
  have hload := exec_of_completes (i := .loadRegs x) (s := { t with I := s.I, V := v }) ⟨hr, rfl⟩
  refine ⟨_, hload, fun k => (getElem_V_of_exec_loadRegs hload hr k).trans ?_⟩
  exact ite_congr rfl (readByte_of_exec_storeRegs hstore hr) fun _ => rfl

end Sys2Proof.Machine
end

section
/-! SUPPORT. Keys and timers (spec/44_keys_timers.md R93 to R99): the skips on a key, the timer writes, the key that `LD Vx, K`
takes, and the wait at it (R119) under every command of the host. -/

namespace Sys2Proof.Machine

/-! ### Skips on a key -/

theorem State.skipIf_PC (s : State) (c : Bool) : (s.skipIf c).PC = if c = true then s.PC + 2 else s.PC := by
  rw [State.skipIf_eq, State.setPC_PC]

theorem State.skipIf_not_PC (s : State) (c : Bool) : (s.skipIf (!c)).PC = if c = true then s.PC else s.PC + 2 := by
  rw [State.skipIf_PC]
  cases c <;> rfl

/-- Settles O46: each skip completes for the key that Vx names, and raises the error above 0xF. -/
theorem skipsOnAKey : Obligations.SkipsOnAKey := fun _ s =>
  ⟨decodeWord_of_isWordOf rfl rfl, decodeWord_of_isWordOf rfl rfl,
    fun k hk =>
      ⟨⟨_, exec_of_completes ⟨k, hk.symm, rfl⟩, s.skipIf_changesOnly _, s.skipIf_PC _⟩,
        ⟨_, exec_of_completes ⟨k, hk.symm, rfl⟩, s.skipIf_changesOnly _, s.skipIf_not_PC _⟩⟩,
    fun hx => ⟨exec_of_raises ⟨hx, rfl⟩, exec_of_raises ⟨hx, rfl⟩⟩⟩

/-! ### Timers -/

theorem State.setDT_changesOnly (s : State) (b : Byte) : ChangesOnly [.DT] s (s.setDT b) := by
  intro p hp
  cases p
  case DT => simp at hp
  all_goals simp [StatePart.Same]

theorem State.setST_changesOnly (s : State) (b : Byte) : ChangesOnly [.ST] s (s.setST b) := by
  intro p hp
  cases p
  case ST => simp at hp
  all_goals simp [StatePart.Same]

/-- Settles O47: one write of Vx. -/
theorem readDelayTimer : Obligations.ReadDelayTimer := fun x s =>
  ⟨decodeWord_of_isWordOf rfl rfl, _, rfl, s.setV_getElem_self x _, s.setV_regsSameExcept x _, s.setV_changesOnly x _⟩

/-- Settles O48: one write of each timer, and the sound signal is ST ≠ 0 after the write. -/
theorem writeTimers : Obligations.WriteTimers := fun _ s =>
  ⟨decodeWord_of_isWordOf rfl rfl, decodeWord_of_isWordOf rfl rfl,
    ⟨_, rfl, rfl, s.setDT_changesOnly _⟩, ⟨_, rfl, rfl, s.setST_changesOnly _, rfl⟩⟩

/-! ### `LD Vx, K` -/

theorem lowestPressed_eq_none {keys : Vector Bool 16} (h : ∀ k : KeyIdx, keys[k] = false) :
    lowestPressed keys = none := by
  rcases lowestPressed_cases keys with ⟨-, hnone⟩ | ⟨k, hk, -⟩
  · exact hnone
  · exact absurd hk (by simp [h k])

theorem lowestPressed_eq_some {keys : Vector Bool 16} {k : KeyIdx} (hk : keys[k] = true)
    (hlow : ∀ j : KeyIdx, j < k → keys[j] = false) : lowestPressed keys = some k := by
  rcases lowestPressed_cases keys with ⟨hnone, -⟩ | ⟨l, hl, hlowest, hsome⟩
  · exact absurd hk (by simp [hnone k])
  · rcases lt_trichotomy l k with hlt | rfl | hlt
    · exact absurd hl (by simp [hlow l hlt])
    · exact hsome
    · exact absurd hk (by simp [hlowest k hlt])

/-- A key index as Vx holds it (R97). -/
theorem keyIdx_byte_toNat (k : KeyIdx) : (BitVec.ofNat 8 k.val).toNat = k.val := by
  rw [BitVec.toNat_ofNat]
  omega

theorem exec_ldVxK_of_lowest {s : State} {k : KeyIdx} (hk : s.keys[k] = true)
    (hlow : ∀ j : KeyIdx, j < k → s.keys[j] = false) (x : RegIdx) :
    exec (.ldVxK x) s = .next (s.setV x (BitVec.ofNat 8 k.val)) :=
  exec_of_completes (.inr ⟨k, lowestPressed_eq_some hk hlow, rfl⟩)

theorem exec_ldVxK_of_none {s : State} (h : ∀ k : KeyIdx, s.keys[k] = false) (x : RegIdx) :
    exec (.ldVxK x) s = .next (s.setPC s.fetchAddr) :=
  exec_of_completes (.inl ⟨lowestPressed_eq_none h, rfl⟩)

/-- Settles O49: the write of Vx with a key pressed, and else the write of PC. -/
theorem keyWaitTakesTheLowestKey : Obligations.KeyWaitTakesTheLowestKey := by
  intro x s a hpc
  refine ⟨decodeWord_of_isWordOf rfl rfl, fun k hk hlow => ?_, fun hnone => ?_⟩
  · refine ⟨_, exec_ldVxK_of_lowest hk hlow x, ?_, s.setV_regsSameExcept x _, s.setV_changesOnly x _⟩
    rw [State.setV_getElem_self, keyIdx_byte_toNat]
  · exact ⟨_, exec_ldVxK_of_none hnone x, State.fetchAddr_eq hpc, s.setPC_changesOnly _⟩

/-! ### The commands of the host -/

theorem issue_step_of_ok {s t : State} (h : step s = .next t) (hh : t.halted = none) :
    issue .step s = .next (t, .ok) := by
  simp only [issue, h, stepResult, hh]

/-- A state that a step leaves unchanged is left unchanged by any number of steps. -/
theorem run_of_step_eq_self {s : State} (h : step s = .next s) (n : Nat) : Host.Core.run core n s = .next s := by
  induction n with
  | zero => rfl
  | succ n ih => simpa only [Host.Core.run, core, h] using ih

theorem issue_setKey_keyIdx (k : KeyIdx) (p : Bool) (s : State) :
    issue (.setKey k.val p) s = .next (s.setKeyBit k p, .ok) := by
  have hk : (0 : Int) ≤ k.val ∧ (k.val : Int) ≤ 15 := by omega
  simp only [issue, setKey, dif_pos hk, Int.toNat_natCast]

theorem issue_setKey_of_outside {index : Int} (h : index < 0 ∨ index > 15) (p : Bool) (s : State) :
    issue (.setKey index p) s = .next (s, .error (.invalidKeyIndex index)) := by
  have hout : ¬ (0 ≤ index ∧ index ≤ 15) := by omega
  simp only [issue, setKey, dif_neg hout]

/-- An index of `set_key` is that of a key, or it is refused (R112). -/
theorem keyIdx_or_outside (index : Int) : (∃ k : KeyIdx, index = k.val) ∨ index < 0 ∨ index > 15 := by
  by_cases h : 0 ≤ index ∧ index ≤ 15
  · exact .inl ⟨⟨index.toNat, by omega⟩, (Int.toNat_of_nonneg h.1).symm⟩
  · exact .inr (by omega)

theorem State.setKeyBit_getElem_self (s : State) (k : KeyIdx) (p : Bool) : (s.setKeyBit k p).keys[k] = p :=
  Vector.getElem_set_self k.isLt

theorem State.setKeyBit_getElem_ne (s : State) {j k : KeyIdx} (p : Bool) (h : j ≠ k) :
    (s.setKeyBit k p).keys[j] = s.keys[j] :=
  Vector.getElem_set_ne k.isLt j.isLt fun hkj => h (Fin.ext hkj.symm)

/-! ### The wait (R119) -/

/-- Where the next step stands depends on memory, PC and the halt status alone. -/
theorem State.AtInstr.of_changesOnly {ps : List StatePart} {s t : State} {i : Instr} (h : s.AtInstr i)
    (hframe : ChangesOnly ps s t) (hmem : .mem ∉ ps) (hPC : .PC ∉ ps) (hhalted : .halted ∉ ps) : t.AtInstr i := by
  have hm : ∀ a, t.mem.readByte a = s.mem.readByte a := hframe _ hmem
  have hp : t.PC = s.PC := hframe _ hPC
  have hh : t.halted = s.halted := hframe _ hhalted
  simpa only [State.AtInstr, State.wordAtPC, hm, hp, hh] using h

theorem State.Waiting.step_eq_self {s : State} (h : s.Waiting) : step s = .next s := by
  obtain ⟨⟨x, hat⟩, hkeys⟩ := h
  rw [step_of_atInstr hat, exec_ldVxK_of_none (s := s.advance) hkeys, State.fetchAddr_advance]
  rfl

theorem State.Waiting.issue_step {s : State} (h : s.Waiting) : issue .step s = .next (s, .ok) := by
  have hhalted : s.halted = none := by
    obtain ⟨⟨x, hh, -⟩, -⟩ := h
    exact hh
  exact issue_step_of_ok h.step_eq_self hhalted

theorem State.Waiting.tickTimers {s : State} (h : s.Waiting) : (Machine.tickTimers s).Waiting := by
  obtain ⟨⟨x, hat⟩, hkeys⟩ := h
  exact ⟨⟨x, hat.of_changesOnly (tickTimers_changesOnly s) (by decide) (by decide) (by decide)⟩, hkeys⟩

/-- Releasing a key keeps the wait. -/
theorem State.Waiting.setKeyBit_false {s : State} (h : s.Waiting) (k : KeyIdx) : (s.setKeyBit k false).Waiting := by
  obtain ⟨hat, hkeys⟩ := h
  refine ⟨hat, fun j => ?_⟩
  by_cases hj : j = k
  · rw [hj, State.setKeyBit_getElem_self]
  · rw [State.setKeyBit_getElem_ne s false hj, hkeys j]

/-- Every command but a `load` that succeeds and a key pressed keeps the wait. -/
theorem State.Waiting.kept {s : State} (h : s.Waiting) {c : Command}
    (hload : ∀ bytes, bytes.length ≤ 3584 → c ≠ .load bytes) (hkey : ∀ k : KeyIdx, c ≠ .setKey k.val true) :
    ∃ t r, issue c s = .next (t, r) ∧ t.Waiting := by
  cases c with
  | load bytes =>
    have hlen : bytes.length > 3584 := Nat.lt_of_not_le fun hle => hload bytes hle rfl
    exact ⟨s, _, issue_load_of_gt hlen s, h⟩
  | step => exact ⟨s, _, h.issue_step, h⟩
  | tickTimers => exact ⟨_, _, rfl, h.tickTimers⟩
  | setKey index pressed =>
    rcases keyIdx_or_outside index with ⟨k, rfl⟩ | hout
    · cases pressed with
      | true => exact absurd rfl (hkey k)
      | false => exact ⟨_, _, issue_setKey_keyIdx k false s, h.setKeyBit_false k⟩
    · exact ⟨s, _, issue_setKey_of_outside hout pressed s, h⟩
  | framebufferSnapshot => exact ⟨s, _, rfl, h⟩
  | isSoundActive => exact ⟨s, _, rfl, h⟩

/-- The step after a key is pressed stores that key, the only one pressed, and goes on. -/
theorem State.Waiting.step_setKeyBit_true {s : State} (h : s.Waiting) {x : RegIdx} (hx : s.AtInstr (.ldVxK x))
    (k : KeyIdx) :
    step (s.setKeyBit k true) = .next ((s.setKeyBit k true).advance.setV x (BitVec.ofNat 8 k.val)) := by
  obtain ⟨-, hkeys⟩ := h
  have hat : (s.setKeyBit k true).AtInstr (.ldVxK x) := hx
  have hlow (j : KeyIdx) (hj : j < k) : (s.setKeyBit k true).keys[j] = false :=
    (s.setKeyBit_getElem_ne true (ne_of_lt hj)).trans (hkeys j)
  rw [step_of_atInstr hat]
  exact exec_ldVxK_of_lowest (s := (s.setKeyBit k true).advance) (s.setKeyBit_getElem_self k true) hlow x

/-- Settles O57: a step keeps the wait with nothing changed, so do the commands of `Waiting.kept`, and a key ends it. -/
theorem waitingEndsOnlyWithAKeyOrALoad : Obligations.WaitingEndsOnlyWithAKeyOrALoad := by
  intro s hwait
  refine ⟨hwait.issue_step, run_of_step_eq_self hwait.step_eq_self, fun c => hwait.kept, fun k x hx => ?_⟩
  have hstep := hwait.step_setKeyBit_true hx k
  obtain ⟨hh, -⟩ := hx
  refine ⟨_, _, issue_setKey_keyIdx k true s, issue_step_of_ok hstep hh, ?_, rfl⟩
  rw [State.setV_getElem_self, keyIdx_byte_toNat]

end Sys2Proof.Machine
end

section
/-! SUPPORT. Errors and the halt (spec/60_exceptions.md R100 to R103): every step answers a next state, an error is precise, and a
halted core steps in place under commands that still act. -/

namespace Sys2Proof.Machine

/-! ### Every step answers a next state -/

/-- An instruction completes, or its error is a next state too (R101). -/
theorem exec_answers_next (i : Instr) (s : State) : ∃ t, exec i s = .next t := by
  rcases raises_or_completes i s with ⟨e, he⟩ | ⟨t, ht⟩
  · exact ⟨_, exec_of_raises he⟩
  · exact ⟨t, exec_of_completes ht⟩

theorem step_answers_next (s : State) : ∃ t, step s = .next t := by
  rcases step_cases s with ⟨_, -, hs⟩ | ⟨-, -, hs⟩ | ⟨-, -, -, hs⟩ | ⟨i, -, hs⟩
  · exact ⟨_, hs⟩
  · exact ⟨_, hs⟩
  · exact ⟨_, hs⟩
  · rw [hs]; exact exec_answers_next i s.advance

/-- Settles O7: the cases of the step cycle, and of the instruction it runs, are all next states. -/
theorem stepAlwaysAnswersNext : Obligations.StepAlwaysAnswersNext :=
  ⟨step_answers_next, exec_answers_next⟩

/-! ### Errors are precise -/

theorem issue_step_of_error {s t : State} {e : ErrorRecord} (h : step s = .next t) (hh : t.halted = some e) :
    issue .step s = .next (t, .error e) := by
  simp only [issue, h, stepResult, hh]

/-- An instruction that raises an error changes the halt status alone (R101). -/
theorem eq_raise_of_exec {i : Instr} {s t : State} {e : ErrorRecord} (h : exec i s = .next t) (hs : s.halted = none)
    (ht : t.halted = some e) : t = s.raise e := by
  rcases exec_halts_or_keeps h with hkeep | ⟨d, rfl⟩
  · simp [hkeep, hs] at ht
  · rw [Option.some.inj ht]

/-- A step that raises an error leaves PC where the fetch left it, and changes the halt status (R101). -/
theorem eq_of_step_raises {s t : State} {e : ErrorRecord} (hs : s.halted = none) (h : step s = .next t)
    (ht : t.halted = some e) : t = if s.PC.toNat + 1 > 0xFFF then s.raise e else s.advance.raise e := by
  rcases step_cases s with ⟨d, hd, -⟩ | ⟨-, hr, hstep⟩ | ⟨-, hr, -, hstep⟩ | ⟨i, ⟨-, hr, -⟩, hstep⟩
  · simp [hs] at hd
  · cases hstep.symm.trans h
    rw [if_pos (by omega), ← Option.some.inj ht]
  · cases hstep.symm.trans h
    rw [if_neg (by omega), ← Option.some.inj ht]
  · rw [if_neg (by omega)]
    exact eq_raise_of_exec (hstep.symm.trans h) hs ht

/-- Settles O8: the state is that of `eq_of_step_raises`, and the result reads the record stored in it. -/
theorem errorsArePrecise : Obligations.ErrorsArePrecise := by
  intro s t e hs h ht
  refine ⟨issue_step_of_error h ht, ?_⟩
  rw [eq_of_step_raises hs h ht]
  split <;> rfl

/-! ### The halt -/

/-- A command that is no step and no `load` neither reads nor writes the halt status (R102). -/
theorem issue_ignores_halted {c : Command} (hstep : c ≠ .step) (hload : ∀ bytes, c ≠ .load bytes) (s : State) :
    ∃ (t : State) (r : Result), ∀ h, issue c { s with halted := h } = .next ({ t with halted := h }, r) := by
  cases c with
  | load bytes => exact absurd rfl (hload bytes)
  | step => exact absurd rfl hstep
  | tickTimers => exact ⟨tickTimers s, _, fun _ => rfl⟩
  | setKey index pressed =>
    rcases keyIdx_or_outside index with ⟨k, rfl⟩ | hout
    · exact ⟨s.setKeyBit k pressed, _, fun _ => issue_setKey_keyIdx k pressed _⟩
    · exact ⟨s, _, fun _ => issue_setKey_of_outside hout pressed _⟩
  | framebufferSnapshot => exact ⟨s, .grid (framebufferSnapshot s), fun _ => rfl⟩
  | isSoundActive => exact ⟨s, .active (isSoundActive s), fun _ => rfl⟩

/-- Settles O9: a step answers the stored error, a `load` constructs the state anew, and the other commands act alike under
every halt status. -/
theorem haltedCoreStaysHalted : Obligations.HaltedCoreStaysHalted := by
  intro s e hs
  refine ⟨issue_step_of_error (step_of_halted hs) hs, fun bytes hlen => ⟨_, issue_load_of_le hlen s, rfl⟩,
    fun c hstep hload => ?_⟩
  obtain ⟨t, r, hc⟩ := issue_ignores_halted hstep hload s
  exact ⟨{ t with halted := none }, r, hc none, rfl, hs ▸ hc s.halted⟩

end Sys2Proof.Machine
end

section
/-! SUPPORT. The timer unit beside the steps (R110, R111): a step that runs no timer instruction commutes with a tick. -/

namespace Sys2Proof.Machine

/-- No check of R103 reads a timer. -/
theorem Raises.tickTimers {i : Instr} {s : State} {e : ErrorRecord} (h : Raises i s e) :
    Raises i (Machine.tickTimers s) e := h

theorem State.skipIf_tickTimers (s : State) (c : Bool) : (tickTimers s).skipIf c = tickTimers (s.skipIf c) := by
  simp only [State.skipIf_eq]; rfl

theorem State.moveIndex_tickTimers (s : State) (x : RegIdx) :
    (tickTimers s).moveIndex x = tickTimers (s.moveIndex x) := by
  simp only [State.moveIndex_eq]; rfl

theorem State.setLogic_tickTimers (s : State) (x : RegIdx) (r : Byte) :
    (tickTimers s).setLogic x r = tickTimers (s.setLogic x r) := by
  simp only [State.setLogic_eq]; rfl

/-- The instructions that read or write a timer (R95, R98, R99). -/
def usesTimers : Instr → Bool
  | .ldVxDt _ | .ldDtVx _ | .ldStVx _ => true
  | _ => false

/-- A run of an instruction that uses no timer commutes with a tick. -/
theorem Completes.tickTimers {i : Instr} {s t : State} (h : Completes i s t) (hi : usesTimers i = false) :
    Completes i (Machine.tickTimers s) (Machine.tickTimers t) := by
  cases i
  case ldVxDt | ldDtVx | ldStVx => cases hi
  case sys | ret | call | ldB => obtain ⟨hcond, rfl⟩ := h; exact ⟨hcond, rfl⟩
  case drw => obtain ⟨rows, b, hr, hb, rfl⟩ := h; exact ⟨rows, b, hr, hb, rfl⟩
  case skp | sknp => obtain ⟨k, hk, rfl⟩ := h; exact ⟨k, hk, (State.skipIf_tickTimers s _).symm⟩
  case ldVxK =>
    obtain ⟨hk, rfl⟩ | ⟨k, hk, rfl⟩ := h
    · exact .inl ⟨hk, rfl⟩
    · exact .inr ⟨k, hk, rfl⟩
  case storeRegs | loadRegs => obtain ⟨hr, rfl⟩ := h; exact ⟨hr, (State.moveIndex_tickTimers _ _).symm⟩
  case or | and | xor => cases h; exact congrArg _ (State.setLogic_tickTimers s _ _)
  case seImm | sneImm | seReg | sneReg => cases h; exact congrArg _ (State.skipIf_tickTimers s _)
  all_goals cases h; rfl

theorem exec_tickTimers {i : Instr} {s t : State} (h : exec i s = .next t) (hi : usesTimers i = false) :
    exec i (tickTimers s) = .next (tickTimers t) := by
  rcases exec_next_iff.mp h with hc | ⟨e, he, rfl⟩
  · exact exec_of_completes (hc.tickTimers hi)
  · exact exec_of_raises he.tickTimers

/-- Settles O55: the halt, the fetch and the checks of a step read no timer, so a step not at a timer instruction commutes. -/
theorem ticksCommuteWithSteps : Obligations.TicksCommuteWithSteps := by
  intro s t htimers h
  rcases step_cases s with ⟨e, hh, hs⟩ | ⟨hh, hr, hs⟩ | ⟨hh, hr, ⟨e, hd⟩, hs⟩ | ⟨i, hi, hs⟩
  · cases hs.symm.trans h
    exact step_of_halted hh
  · cases hs.symm.trans h
    exact step_of_outOfRange hh hr
  · cases hs.symm.trans h
    exact step_of_unknown hh hr hd
  · have hat : (tickTimers s).AtInstr i := hi
    have huses : usesTimers i = false := by
      cases i
      case ldVxDt x | ldDtVx x | ldStVx x =>
        obtain ⟨hldVxDt, hldDtVx, hldStVx⟩ := htimers x
        contradiction
      all_goals rfl
    rw [step_of_atInstr hat]
    exact exec_tickTimers (hs.symm.trans h) huses

end Sys2Proof.Machine
end

section
/-! SUPPORT. The commands of the host one by one (R111 to R114): a tick, a key, and the two reads. -/

namespace Sys2Proof.Machine

/-- Settles O51: a countdown with floor 0 is a decrement of a timer above 0. -/
theorem tickDecrementsBothTimers : Obligations.TickDecrementsBothTimers := by
  refine fun s => ⟨tickTimers s, rfl, ?_, ?_, tickTimers_changesOnly s⟩
  · rw [tickTimers_DT_toNat]; split <;> omega
  · rw [tickTimers_ST_toNat]; split <;> omega

theorem State.setKeyBit_changesOnly (s : State) (k : KeyIdx) (p : Bool) : ChangesOnly [.keys] s (s.setKeyBit k p) := by
  intro q hq
  cases q
  case keys => simp at hq
  all_goals simp [StatePart.Same]

/-- Settles O53: an index of a key is one write of the latch, and any other index is refused. -/
theorem setKeyWritesTheLatch : Obligations.SetKeyWritesTheLatch := by
  refine fun s index pressed => ⟨?_, fun hout => issue_setKey_of_outside hout pressed s⟩
  rintro k rfl
  exact ⟨s.setKeyBit k pressed, issue_setKey_keyIdx k pressed s, s.setKeyBit_getElem_self k pressed,
    fun _ hj => s.setKeyBit_getElem_ne pressed hj, s.setKeyBit_changesOnly k pressed⟩

theorem isSoundActive_eq_true_iff (s : State) : isSoundActive s = true ↔ s.ST.toNat ≠ 0 := by
  rw [isSoundActive, decide_eq_true_iff, ne_eq, ← BitVec.toNat_inj]; rfl

/-- Settles O54: the snapshot is FB itself, and the sound signal is ST ≠ 0. -/
theorem hostReadsArePure : Obligations.HostReadsArePure := fun s =>
  ⟨⟨_, rfl, fun _ _ => rfl⟩, _, rfl, isSoundActive_eq_true_iff s⟩

end Sys2Proof.Machine
end

section
/-! SUPPORT. Reset, schedules and the spin (spec/70_reset_and_hazards.md R120 to R130): the state a `load` leaves meets the
invariant, every command keeps it, and so does a schedule; and a spin steps in place. -/

namespace Sys2Proof.Machine

/-! ### The invariant along a schedule -/

/-- The font image lies inside the address space for every FONT_BASE (R6, R120). -/
theorem State.construct_inv (cfg : Config) (draws : Nat) : (State.construct cfg draws).Inv := by
  obtain ⟨-, hpc, hstack, hhalted⟩ := resetMeetsTheInvariant
  have hbase := cfg.fontBase.isLt
  exact ⟨Memory.writeBytes_wf Memory.nil_wf _ (by simp only [Vector.length_toList, memSize]; omega), hpc, hstack, hhalted⟩

/-- A program of at most 3584 bytes from 0x200 ends inside the address space (R120). -/
theorem loaded_inv {bytes : List Byte} (hlen : bytes.length ≤ 3584) (s : State) : (loaded bytes s).Inv := by
  obtain ⟨hm, hpc, hstack, hhalted⟩ := State.construct_inv s.cfg s.drawIndex
  exact ⟨Memory.writeBytes_wf hm bytes (by simp only [loadAddr, memSize]; omega), hpc, hstack, hhalted⟩

/-- Every command keeps the invariant: a `load` that succeeds builds it anew, a step is `stepKeepsTheInvariant`, and the
others write no part that it speaks of. -/
theorem issue_inv {c : Command} {s t : State} {r : Result} (hs : s.Inv) (h : issue c s = .next (t, r)) : t.Inv := by
  cases c with
  | load bytes =>
    rcases Nat.lt_or_ge 3584 bytes.length with hgt | hle
    · cases (issue_load_of_gt hgt s).symm.trans h
      exact hs
    · cases (issue_load_of_le hle s).symm.trans h
      exact loaded_inv hle s
  | step =>
    obtain ⟨u, hu⟩ := step_answers_next s
    simp only [issue, hu] at h
    cases h
    exact stepKeepsTheInvariant s _ hs hu
  | setKey index pressed =>
    rcases keyIdx_or_outside index with ⟨k, rfl⟩ | hout
    · cases (issue_setKey_keyIdx k pressed s).symm.trans h
      exact hs
    · cases (issue_setKey_of_outside hout pressed s).symm.trans h
      exact hs
  | tickTimers | framebufferSnapshot | isSoundActive =>
    cases h
    exact hs

/-- A schedule that runs through issues its first command, and then runs the others from the state that command left. -/
theorem issue_of_runSchedule_cons {c : Command} {cs : List Command} {s u : State} {rs : List Result}
    (h : runSchedule (c :: cs) s = .next (u, rs)) :
    ∃ t r rs', issue c s = .next (t, r) ∧ runSchedule cs t = .next (u, rs') := by
  rw [runSchedule] at h
  split at h
  next => cases h
  next => cases h
  next t r hc =>
    split at h
    next hcs =>
      cases h
      exact ⟨t, r, _, hc, hcs⟩
    next => cases h
    next => cases h

/-- Settles O13, by induction on the schedule. -/
theorem everyScheduleKeepsTheInvariant : Obligations.EveryScheduleKeepsTheInvariant := by
  intro cs
  induction cs with
  | nil =>
    intro s t rs hs h
    cases h
    exact hs
  | cons c cs ih =>
    intro s u rs hs h
    obtain ⟨t, r, rs', hc, hcs⟩ := issue_of_runSchedule_cons h
    exact ih t u rs' (issue_inv hs hc) hcs

/-! ### The spin (R130) -/

/-- The jump writes back the PC that the fetch advanced (R60). -/
theorem State.Spinning.step_eq_self {s : State} (h : s.Spinning) : step s = .next s := by
  obtain ⟨nnn, hat, hpc⟩ := h
  calc step s = exec (.jp nnn) s.advance := step_of_atInstr hat
    _ = .next (s.advance.setPC (nnn.setWidth 16)) := exec_of_completes rfl
    _ = .next (s.advance.setPC s.PC) := by rw [hpc]
    _ = .next s := rfl

/-- Settles O58: a state that one step leaves unchanged is left so by every number of steps. -/
theorem spinKeepsTheState : Obligations.SpinKeepsTheState := fun _ h => run_of_step_eq_self h.step_eq_self

end Sys2Proof.Machine
end
